-- ==== Sys2Proof/Word.lean ====
section
/-! DEFINITION. The byte arrays of the engine as bit vectors, first byte most significant (R9; log 3). -/

namespace Sys2Proof

/-- A byte, unsigned, bit 7 most significant (R8). -/
abbrev Byte := BitVec 8

/-- A block of 16 bytes, held as `int(B)`: byte 0 is bits 127 to 120, byte 15 bits 7 to 0 (R9). -/
abbrev Block := BitVec 128

/-- The 16-byte key operand, `KEY[0]` in bits 127 to 120 (R93, R94). -/
abbrev Key := BitVec 128

/-- The 7-byte nonce operand, `NONCE[0]` in bits 55 to 48 (R93, R94). -/
abbrev Nonce := BitVec 56

/-- The 4-byte tag, `TAG[0]` in bits 31 to 24 (R34, R64). -/
abbrev Tag := BitVec 32

/-- The length field `LEN`, unsigned, `CNT_BITS` wide (R94, R96). -/
abbrev Len := BitVec 32

/-- A fill position, 0 to 16 (R28, R30). -/
abbrev FillPos := Fin 17

/-- The block of 16 zero bytes (R9). -/
abbrev zeroBlock : Block := 0

end Sys2Proof
end

