-- ==== Sys2Proof/Machine/Bytes.lean ====
section
/-! DEFINITION. Byte order: how the bytes of an array lie in its bit vector (R9, R64, R65, R66). -/

namespace Sys2Proof

/-- Byte `i` of a byte array of `w / 8` bytes, byte 0 first and most significant (R9). -/
def byteOf {w : Nat} (x : BitVec w) (i : Nat) : Byte := x.extractLsb' (w - 8 * (i + 1)) 8

/-- The bytes of an array in index order (R64). -/
def toBytes {w : Nat} (x : BitVec w) : List Byte := (List.range (w / 8)).map (byteOf x)

/-- The big-endian value of a byte list (R9, and `be32` of R103). -/
def bigEndian (d : List Byte) : Nat := d.foldl (fun n b => 256 * n + b.toNat) 0

/-- The array whose bytes in index order are `d` (R9). -/
def ofBytes (w : Nat) (d : List Byte) : BitVec w := BitVec.ofNat w (bigEndian d)

/-- `B[i] <- B[i] ^ v` on a block (R10, R11, R65). -/
def xorByteAt (b : Block) (i : Nat) (v : Byte) : Block := b ^^^ (v.setWidth 128 <<< (8 * (15 - i)))

/-- `T[0..4)`: the first four bytes of a block (R10, R180). -/
def firstFour (b : Block) : Tag := b.extractLsb' 96 32

end Sys2Proof
end

