-- ==== Sys2Proof/Config.lean ====
section
/-! DEFINITION. The parameters of the hardware (R6) and the external block cipher (R12), which is open. -/

namespace Sys2Proof

/-- A key schedule as data. The spec makes `KS` an opaque type (R12); any key schedule that is a function of the
key can be written as bytes (R21; log 1). -/
abbrev KeySchedule := List Byte

/-- The block cipher the embedding system supplies (R12, R63). Every shared operation of the model takes it as an
argument; the machine runs with `Config.cipher`, which is open. -/
structure Cipher where
  /-- `derive_key_schedule` (R12). -/
  deriveKeySchedule : Key → KeySchedule
  /-- `block_encrypt` (R12). -/
  blockEncrypt : KeySchedule → Block → Block
  /-- The model's own free value: what `E(B)` would be while `KS = KS_NONE`, which no rule of the spec says,
  because no rule applies `E` then (R21, R182; DESIGN CHOICE, log 2). -/
  unkeyedEncrypt : Block → Block

namespace Config

/-- `BLOCK_BYTES` (R6). -/
abbrev blockBytes : Nat := 16
/-- `KEY_BYTES` (R6). -/
abbrev keyBytes : Nat := 16
/-- `NONCE_BYTES` (R6). -/
abbrev nonceBytes : Nat := 7
/-- `TAG_BYTES` (R6). -/
abbrev tagBytes : Nat := 4
/-- `TWEAK_NONCE` (R6). -/
abbrev tweakNonce : Byte := 0
/-- `TWEAK_CTEXT` (R6). The header tweak, 1, is reserved and no rule uses it (R102, R137). -/
abbrev tweakCtext : Byte := 2
/-- `GF_REDUCE` (R6), as a block: the byte stands in byte 15. -/
abbrev gfReduce : Block := 0x87
/-- `PAD_BYTE` (R6). -/
abbrev padByte : Byte := 0x80
/-- `CNT_BITS`, the width of the byte counters and of `LEN` (R6, R7). -/
abbrev cntBits : Nat := 32

/-- The cipher's key derivation: a free function (R12; log 1). -/
opaque deriveKeySchedule : Key → KeySchedule
/-- The cipher's encryption: a free function (R12; log 1). -/
opaque blockEncrypt : KeySchedule → Block → Block
/-- The free value of an encryption without a key schedule (log 2). -/
opaque unkeyedEncrypt : Block → Block

/-- The cipher this machine is built with: nothing is known of it (R6, R12). -/
def cipher : Cipher where
  deriveKeySchedule := deriveKeySchedule
  blockEncrypt := blockEncrypt
  unkeyedEncrypt := unkeyedEncrypt

end Config

end Sys2Proof
end

