-- ==== Sys2Proof/Syntax.lean ====
section
/-! DEFINITION. The command set: one constructor for each of the sixteen rows of the opcode table (R92). -/

namespace Sys2Proof

/-- A MAC accumulator value `(acc, pos, cnt)` (R15, R135). As registers it is `(MAC_ACC, MAC_POS, ACNT)`. -/
structure Accumulator where
  /-- The running block. -/
  acc : Block
  /-- Bytes XORed into `acc` since it was last encrypted; 16 means full, encryption pending. -/
  pos : FillPos
  /-- Bytes absorbed since the start. -/
  cnt : Nat
  deriving DecidableEq, Repr

/-- The sixteen instructions. The first eight are the session commands a host issues (class 0), the last eight the
unit operations that run only inside a command (class 1) and take their operands from the rule that calls them
(R91, R92, R93, R101). -/
inductive Instr where
  /-- `INIT_KEY`, 0x01, format K (R176). -/
  | initKey (key : Key)
  /-- `INIT_MSG`, 0x02, format M (R177). -/
  | initMsg (nonce : Nonce)
  /-- `AUTH`, 0x03, format D (R178). -/
  | auth (len : Len)
  /-- `CRYPT`, 0x04, format D (R179). -/
  | crypt (len : Len)
  /-- `FINAL_TAG`, 0x05, format N (R180). -/
  | finalTag
  /-- `ENC_MSG`, 0x06, format W (R210). -/
  | encMsg (len : Len) (nonce : Nonce)
  /-- `DEC_MSG`, 0x07, format W (R212). -/
  | decMsg (len : Len) (nonce : Nonce)
  /-- `WIPE`, 0x08, format N (R181). -/
  | wipe
  /-- `GF_DBL`, 0x10, format U (R120). -/
  | gfDbl (b : Block)
  /-- `SUBKEY`, 0x11, format U (R122). -/
  | subkey
  /-- `MAC_START`, 0x12, format U (R136). -/
  | macStart (tweak : Byte)
  /-- `MAC_ABSORB`, 0x13, format U (R138). -/
  | macAbsorb (m : Accumulator) (d : List Byte)
  /-- `MAC_FINISH`, 0x14, format U (R142). -/
  | macFinish (m : Accumulator)
  /-- `CTR_SEED`, 0x15, format U (R158). -/
  | ctrSeed (b : Block)
  /-- `CTR_APPLY`, 0x16, format U (R159). -/
  | ctrApply (d : List Byte)
  /-- `CTR_INC`, 0x17, format U (R156). -/
  | ctrInc (b : Block)
  deriving DecidableEq, Repr

/-- The class of an instruction (R91): true for the eight session commands, false for the unit operations, which
are not host-issuable (R101). -/
def Instr.hostIssuable : Instr → Bool
  | .initKey _ | .initMsg _ | .auth _ | .crypt _ | .finalTag | .encMsg _ _ | .decMsg _ _ | .wipe => true
  | .gfDbl _ | .subkey | .macStart _ | .macAbsorb _ _ | .macFinish _ | .ctrSeed _ | .ctrApply _ | .ctrInc _ => false

end Sys2Proof
end

