-- ==== Sys2Proof/WellFormed.lean ====
section
/-! DEFINITION. Which terms of `Instr` a rule of the spec can issue. The session commands are well formed by their
types (R95: key and nonce lengths are unrepresentable otherwise); the unit operations' operands are checked. -/

namespace Sys2Proof

/-- The relation of fill position and count that every accumulator reached from `MAC_START` by `MAC_ABSORB` has
(R145). -/
def Accumulator.posMatchesCount (m : Accumulator) : Bool :=
  if m.cnt = 0 then m.pos.val = 16 else m.pos.val = (m.cnt - 1) % 16 + 1

/-- Only the tweaks 0 and 2 are ever passed to `MAC_START` (R137); 1 is reserved (R102). -/
def legalTweak (t : Byte) : Bool := t = Config.tweakNonce || t = Config.tweakCtext

/-- A count that a byte counter can hold (R183). -/
def countFits (n : Nat) : Bool := n < 2 ^ Config.cntBits

/-- The instructions that the rules of the spec can issue. -/
def Instr.wellFormed : Instr → Bool
  | .initKey _ => true
  | .initMsg _ => true
  | .auth _ => true
  | .crypt _ => true
  | .finalTag => true
  | .encMsg _ _ => true
  | .decMsg _ _ => true
  | .wipe => true
  | .gfDbl _ => true
  | .subkey => true
  | .macStart t => legalTweak t
  | .macAbsorb m d => m.posMatchesCount && countFits (m.cnt + d.length)
  | .macFinish m => m.posMatchesCount && countFits m.cnt
  | .ctrSeed _ => true
  | .ctrApply d => countFits d.length
  | .ctrInc _ => true

end Sys2Proof
end

