-- ==== Sys2Proof/Decode.lean ====
section
/-! DEFINITION. The descriptor decoder (R100, R103), total on byte strings, and the encoder of the same formats
(R92, R93, R96). -/

namespace Sys2Proof

/-- Why a descriptor is illegal. All of these execute alike, as `fail ERR_ILLEGAL` (R100). -/
inductive IllegalReason where
  /-- No bytes (R103). -/
  | empty
  /-- The opcode is no instruction (R92, R102). -/
  | noInstruction (op : Byte)
  /-- The opcode names a unit operation, which no host may issue (R101). -/
  | unitOperation (op : Byte)
  /-- The opcode is a session command's and the descriptor has not that command's length (R100). -/
  | wrongLength (op : Byte) (len : Nat)
  deriving DecidableEq, Repr

/-- What the decoder answers. -/
inductive Decoded where
  | command (i : Instr)
  | illegal (why : IllegalReason)
  deriving DecidableEq, Repr

/-- The descriptor length in bytes that the opcode alone decides (R93, R103); none where there is no descriptor. -/
def descriptorLength (op : Byte) : Option Nat :=
  if op = 0x01 then some 17
  else if op = 0x02 then some 8
  else if op = 0x03 then some 5
  else if op = 0x04 then some 5
  else if op = 0x05 then some 1
  else if op = 0x06 then some 12
  else if op = 0x07 then some 12
  else if op = 0x08 then some 1
  else none

/-- The name under which an illegal descriptor is rejected (R100, R101). -/
def illegalReason (op : Byte) (len : Nat) : IllegalReason :=
  if (descriptorLength op).isSome then .wrongLength op len
  else if 0x10 ≤ op.toNat ∧ op.toNat ≤ 0x17 then .unitOperation op
  else .noInstruction op

/-- The decoder, in the order of R103. `d` after the opcode is `rest`, so `d[1..5)` is `rest.take 4`. -/
def decode : List Byte → Decoded
  | [] => .illegal .empty
  | op :: rest =>
    if op = 0x01 ∧ rest.length = 16 then .command (.initKey (ofBytes 128 rest))
    else if op = 0x02 ∧ rest.length = 7 then .command (.initMsg (ofBytes 56 rest))
    else if op = 0x03 ∧ rest.length = 4 then .command (.auth (ofBytes 32 rest))
    else if op = 0x04 ∧ rest.length = 4 then .command (.crypt (ofBytes 32 rest))
    else if op = 0x05 ∧ rest.length = 0 then .command .finalTag
    else if op = 0x06 ∧ rest.length = 11 then
      .command (.encMsg (ofBytes 32 (rest.take 4)) (ofBytes 56 (rest.drop 4)))
    else if op = 0x07 ∧ rest.length = 11 then
      .command (.decMsg (ofBytes 32 (rest.take 4)) (ofBytes 56 (rest.drop 4)))
    else if op = 0x08 ∧ rest.length = 0 then .command .wipe
    else .illegal (illegalReason op (rest.length + 1))

/-- The opcode byte of every row of the table (R92). -/
def Instr.opcode : Instr → Byte
  | .initKey _ => 0x01
  | .initMsg _ => 0x02
  | .auth _ => 0x03
  | .crypt _ => 0x04
  | .finalTag => 0x05
  | .encMsg _ _ => 0x06
  | .decMsg _ _ => 0x07
  | .wipe => 0x08
  | .gfDbl _ => 0x10
  | .subkey => 0x11
  | .macStart _ => 0x12
  | .macAbsorb _ _ => 0x13
  | .macFinish _ => 0x14
  | .ctrSeed _ => 0x15
  | .ctrApply _ => 0x16
  | .ctrInc _ => 0x17

/-- The descriptor of an instruction (R93); none for the unit operations, whose format U has no descriptor. -/
def encode : Instr → Option (List Byte)
  | .initKey key => some (0x01 :: toBytes key)
  | .initMsg nonce => some (0x02 :: toBytes nonce)
  | .auth len => some (0x03 :: toBytes len)
  | .crypt len => some (0x04 :: toBytes len)
  | .finalTag => some [0x05]
  | .encMsg len nonce => some (0x06 :: (toBytes len ++ toBytes nonce))
  | .decMsg len nonce => some (0x07 :: (toBytes len ++ toBytes nonce))
  | .wipe => some [0x08]
  | .gfDbl _ => none
  | .subkey => none
  | .macStart _ => none
  | .macAbsorb _ _ => none
  | .macFinish _ => none
  | .ctrSeed _ => none
  | .ctrApply _ => none
  | .ctrInc _ => none

/-- The descriptor bytes of a word numbered as the opcode table numbers it: bit 0 is the least significant bit of
the first byte. `nbits` may be shorter than the opcode's descriptor; the operand bytes above it are zero
(log 11). -/
def tableBytes (nbits w : Nat) : List Byte :=
  let word := w % 2 ^ nbits
  let full := (descriptorLength (BitVec.ofNat 8 word)).getD 1
  (List.range (max (nbits / 8) full)).map (fun i => BitVec.ofNat 8 (word >>> (8 * i)))

/-- The instruction the decoder reads from a word of the opcode table; none where the decoder refuses, which it
does for the eight unit operations (R101). -/
def decodeTableWord (nbits w : Nat) : Option Instr :=
  match decode (tableBytes nbits w) with
  | .command i => some i
  | .illegal _ => none

end Sys2Proof
end

