-- ==== Sys2Proof/Machine/Buffer.lean ====
section
/-! DEFINITION. The operand buffer: its bytes, its length, and the type of the buffers that a command can have
(R61, R97). -/

namespace Sys2Proof.Machine

/-- The bytes of a buffer: those at offsets from 0 that differ from what an unlisted offset reads as, offsets strictly
rising (R61; logs 5 and 6). -/
abbrev Memory := List Host.Cell

/-- What an offset that is not listed reads as: 0x00 (log 5). -/
def Memory.unlisted : Byte := 0

/-- The canonical form: offsets strictly rising, no cell equal to what an unlisted offset reads as. -/
def Memory.wf : Memory → Bool
  | [] => true
  | [c] => c.2 != Memory.unlisted
  | c :: d :: m => c.2 != Memory.unlisted && decide (c.1 < d.1) && Memory.wf (d :: m)

/-- Every listed offset lies below `n`: the bytes are those of an array of `n` bytes. -/
def Memory.within (m : Memory) (n : Nat) : Bool := m.all (fun c => decide (c.1 < n))

/-- The buffers of `n` bytes, and no others: each array of `n` bytes is exactly one of them (R61, R97; log 6). -/
structure Buffer (n : Nat) where
  /-- The bytes. -/
  cells : Memory
  /-- The canonical form, and no byte at or past the length. -/
  ok : (Memory.wf cells && Memory.within cells n) = true
  deriving DecidableEq, Repr

/-- The buffer of `n` zero bytes. -/
def Buffer.zeros (n : Nat) : Buffer n := ⟨[], rfl⟩

/-- The first `n` bytes of what is held, as a buffer of `n` bytes; zero bytes where what is held is in no canonical
form. -/
def Buffer.window (m : Memory) (n : Nat) : Buffer n :=
  let cells := m.filter (fun c => decide (c.1 < n))
  if h : (Memory.wf cells && Memory.within cells n) = true then ⟨cells, h⟩ else Buffer.zeros n

/-- The length of the operand buffer, fixed by the command and its `LEN` field; 0 is no buffer (R97). -/
def bufferLength : Instr → Nat
  | .auth len => len.toNat
  | .crypt len => len.toNat
  | .encMsg len _ => len.toNat + Config.tagBytes
  | .decMsg len _ => len.toNat + Config.tagBytes
  | .initKey _ => 0
  | .initMsg _ => 0
  | .finalTag => 0
  | .wipe => 0
  | .gfDbl _ => 0
  | .subkey => 0
  | .macStart _ => 0
  | .macAbsorb _ _ => 0
  | .macFinish _ => 0
  | .ctrSeed _ => 0
  | .ctrApply _ => 0
  | .ctrInc _ => 0

/-- The length of the operand buffer of a descriptor's command; an illegal descriptor has none (R97, R100). -/
def operandLength (d : List Byte) : Nat :=
  match decode d with
  | .command i => bufferLength i
  | .illegal _ => 0

end Sys2Proof.Machine
end

