-- ==== Sys2Proof/Machine/State.lean ====
section
/-! DEFINITION. The state of one engine (R20), the operand buffer, the host's pending inputs and the outputs of the
last command, as plain data. -/

namespace Sys2Proof.Machine

/-- The protocol state (R32). Values 5 to 7 of the 3-bit register are never written and have no constructor
(R102; log 18). -/
inductive Phase where
  | uninitialized
  | keyed
  | messageReady
  | streaming
  | finalized
  deriving DecidableEq, Repr

/-- The status codes (R99). Values 0x06 to 0xFF are never written and have no constructor (R102; log 18). -/
inductive Status where
  | ok
  | warnAuthOnly
  | errCount
  | errAuth
  | errUsage
  | errIllegal
  deriving DecidableEq, Repr

/-- The four registers of the CTR engine (R155). -/
structure CtrState where
  /-- `CTR`, the next counter value to encrypt (R25). -/
  ctr : Block
  /-- `KS_CACHE`, the current keystream block (R26). -/
  ksCache : Block
  /-- `KS_POS`, keystream bytes of the cache already used (R30). -/
  ksPos : FillPos
  /-- `CCNT`, bytes run through the CTR engine (R31). -/
  ccnt : Nat
  deriving DecidableEq, Repr

/-- The state of one engine: exactly the elements of R20. -/
structure Engine where
  /-- `KS`; `none` is `KS_NONE` (R21). -/
  ks : Option KeySchedule
  /-- `PAD_FULL` (R22). -/
  padFull : Block
  /-- `PAD_PARTIAL` (R22). -/
  padPartial : Block
  /-- `N` (R23). -/
  n : Block
  /-- `MAC_ACC`, `MAC_POS`, `ACNT` (R24, R28, R29, R135). -/
  mac : Accumulator
  /-- `CTR`, `KS_CACHE`, `KS_POS`, `CCNT` (R155). -/
  ctr : CtrState
  /-- `PHASE` (R32). -/
  phase : Phase
  /-- `STATUS` (R33). -/
  status : Status
  /-- `TAG` (R34). -/
  tag : Tag
  deriving DecidableEq, Repr

/-- What a command or unit operation returns to its caller beside `STATUS` and `BUF` (R15, R98, R215; log 9). -/
inductive Result where
  /-- Nothing. -/
  | none
  /-- `FINAL_TAG`: the four `TAG` bytes (R98). -/
  | tag (t : Tag)
  /-- `DEC_MSG` on `OK`: the plaintext (R215). -/
  | plain (d : List Byte)
  /-- `DEC_MSG` on `ERR_AUTH` (R215). -/
  | authenticationError
  /-- `GF_DBL`, `CTR_INC`, `MAC_FINISH`: a block. -/
  | block (b : Block)
  /-- `MAC_START`, `MAC_ABSORB`: an accumulator value. -/
  | accumulator (m : Accumulator)
  /-- `CTR_APPLY`: the bytes with the keystream applied. -/
  | bytes (d : List Byte)
  deriving DecidableEq, Repr

/-- What a command does at the engine's interfaces: a call of the cipher (R63), or an access to the operand buffer
(R13, R70), whose bytes are accessed in ascending order, each once. -/
inductive InterfaceEvent where
  /-- `derive_key_schedule(key)`. -/
  | deriveKeySchedule (key : Key)
  /-- `E(input)`. -/
  | blockEncrypt (input : Block)
  /-- `MemRead(off, n)`. -/
  | memRead (off n : Nat)
  /-- `MemWrite(off, n, ...)`. -/
  | memWrite (off n : Nat)
  deriving DecidableEq, Repr

/-- What the host or the platform does to the engine between commands. -/
inductive HostInput where
  /-- A descriptor, consumed whole (R79), with the operand buffer the host hands over, whose length is the one that
  the command and its `LEN` fix, by the type: a command with a buffer of another length cannot be stated (R97). -/
  | command (descriptor : List Byte) (buf : Buffer (operandLength descriptor))
  /-- A platform reset, taken between commands only (R260, R265; log 12). -/
  | reset
  deriving DecidableEq, Repr

/-- The whole state: the engine, its operand buffer, and the host interface. -/
structure State where
  /-- The engine's own state (R20). -/
  eng : Engine
  /-- The bytes of `BUF`, the operand buffer last handed over (R61). -/
  buf : Memory
  /-- Inputs presented and not yet taken, the next one first (R76; log 7). -/
  pending : List HostInput
  /-- What the last command returned (log 9). -/
  result : Result
  /-- What the last command did at the cipher and buffer interfaces, in order (R70, R81; log 10). -/
  trace : List InterfaceEvent
  deriving DecidableEq, Repr

/-- Nothing stops the engine: it has no trap mechanism, and every error is a status code in a next state (R239).
So there is no fault reason. -/
inductive Fault where
  deriving DecidableEq, Repr

/-- Reasons a step has no meaning. -/
inductive Refusal where
  /-- Raised by an arm of `exec` whose instruction has no meaning yet: no arm raises it. Safe. -/
  | notModelled (mnemonic : String)
  deriving DecidableEq, Repr

/-- The cleared accumulator registers (R42). -/
def clearedMac : Accumulator := ⟨zeroBlock, 0, 0⟩

/-- The cleared CTR registers (R42). -/
def clearedCtr : CtrState := ⟨zeroBlock, zeroBlock, 0, 0⟩

/-- Every element of the engine at its reset value (R42). -/
def Engine.reset : Engine where
  ks := none
  padFull := zeroBlock
  padPartial := zeroBlock
  n := zeroBlock
  mac := clearedMac
  ctr := clearedCtr
  phase := .uninitialized
  status := .ok
  tag := 0

/-- The machine right after reset (R42, R260): the engine at its reset values, no buffer contents, nothing
presented, nothing returned (logs 5, 7, 9, 10). -/
def State.reset : State where
  eng := Engine.reset
  buf := []
  pending := []
  result := .none
  trace := []

end Sys2Proof.Machine
end

