-- ==== Sys2Proof/Machine/Ops.lean ====
section
/-! DEFINITION. The named operations over the operand buffer, the cipher and the result registers. -/

namespace Sys2Proof.Machine

/-- One byte of the buffer (R13, R69). -/
def Memory.read : Memory → Nat → Byte
  | [], _ => Memory.unlisted
  | c :: m, a => if c.1 = a then c.2 else Memory.read m a

/-- The buffer without a cell at `a`. -/
def Memory.erase (m : Memory) (a : Nat) : Memory := m.filter (fun c => c.1 != a)

/-- The buffer with the cell `(a, v)` put before the first higher offset. -/
def Memory.insert : Memory → Nat → Byte → Memory
  | [], a, v => [(a, v)]
  | c :: m, a, v => if a < c.1 then (a, v) :: c :: m else c :: Memory.insert m a v

/-- One byte written (R13, R69); writing what an unlisted offset reads as removes the cell. -/
def Memory.write (m : Memory) (a : Nat) (v : Byte) : Memory :=
  if v = Memory.unlisted then Memory.erase m a else Memory.insert (Memory.erase m a) a v

/-- `MemRead(off, n)` on a buffer (R13): bytes in ascending order (R64). -/
def Memory.readBytes (m : Memory) (off n : Nat) : List Byte :=
  (List.range n).map (fun i => m.read (off + i))

/-- `MemWrite(off, n, v)` on a buffer, `n` the length of `v` (R13): bytes in ascending order (R64). -/
def Memory.writeBytes : Memory → Nat → List Byte → Memory
  | m, _, [] => m
  | m, off, v :: vs => Memory.writeBytes (m.write off v) (off + 1) vs

/-- `MemRead(off, n)` (R13). -/
def State.memRead (s : State) (off n : Nat) : List Byte := s.buf.readBytes off n

/-- `MemWrite(off, n, v)` (R13). -/
def State.memWrite (s : State) (off : Nat) (v : List Byte) : State :=
  { s with buf := s.buf.writeBytes off v }

/-- `block_encrypt` with the register `KS` (R12). While `KS = KS_NONE` the value is free (log 2). -/
def Cipher.encrypt (c : Cipher) (ks : Option KeySchedule) (b : Block) : Block :=
  match ks with
  | some k => c.blockEncrypt k b
  | none => c.unkeyedEncrypt b

/-- The cipher calls that give these blocks to the cipher, in order (R63). -/
def encryptEvents (inputs : List Block) : List InterfaceEvent := inputs.map InterfaceEvent.blockEncrypt

/-- `E(B)` with the engine's `KS` register (R12). -/
def Engine.encrypt (c : Cipher) (e : Engine) (b : Block) : Block := Cipher.encrypt c e.ks b

/-- `done <STATUS_CODE>` (R14): `STATUS` is written as the last step (R33), with what the command returns and the
interface events it made. -/
def State.done (s : State) (code : Status) (result : Result) (trace : List InterfaceEvent) : State :=
  { s with eng := { s.eng with status := code }, result := result, trace := trace }

/-- `fail <STATUS_CODE>` (R14), the engine's one form of exception (R239): `STATUS` is written, every other state
element and every byte of `BUF` stays, nothing is saved, control goes nowhere, and there is nothing to return
from. -/
def State.fail (s : State) (code : Status) : State := s.done code .none []

/-- A unit operation's return to the rule that called it: a value, and no write of `STATUS` (R15; log 9). -/
def State.returns (s : State) (result : Result) (trace : List InterfaceEvent) : State :=
  { s with result := result, trace := trace }

end Sys2Proof.Machine
end

