-- ==== Sys2Proof/Machine/Operands.lean ====
section
/-! DEFINITION. The operand forms of the commands: the slices of the operand buffer that the commands
read (R70). -/

namespace Sys2Proof.Machine

/-- `BUF[0..n)`, the message bytes (R70, R213). -/
def State.messageBytes (s : State) (n : Nat) : List Byte := s.memRead 0 n

/-- `BUF[n..n+4)`, the received tag of `DEC_MSG` (R212, R213). -/
def State.receivedTag (s : State) (n : Nat) : List Byte := s.memRead n Config.tagBytes

end Sys2Proof.Machine
end

