-- ==== Sys2Proof/Machine/CtrEngine.lean ====
section
/-! DEFINITION. The CTR keystream engine (R155 to R166). -/

namespace Sys2Proof.Machine

/-- `INC(B)`: the full 128-bit big-endian increment, which wraps (R156, R157). -/
def inc (b : Block) : Block := b + 1

/-- `CTR_SEED(B)` (R158). -/
def ctrSeed (b : Block) : CtrState := ⟨b, zeroBlock, 0, 0⟩

/-- Whether the keystream cache is exhausted or the engine is at the start (R159, R160). -/
def ctrStale (r : CtrState) : Bool := decide (16 ≤ r.ksPos.val) || r.ccnt == 0

/-- A fresh keystream block where one is needed: encrypt the counter, then increment it (R159). -/
def ctrRefresh (E : Block → Block) (r : CtrState) : CtrState :=
  if ctrStale r then { r with ksCache := E r.ctr, ctr := inc r.ctr, ksPos := 0 } else r

/-- The registers after one byte (R159). -/
def ctrNext (E : Block → Block) (r : CtrState) : CtrState :=
  let q := ctrRefresh E r
  { q with ksPos := q.ksPos + 1, ccnt := q.ccnt + 1 }

/-- The keystream byte that the next data byte meets (R65, R159). -/
def ctrKeyByte (E : Block → Block) (r : CtrState) : Byte :=
  let q := ctrRefresh E r
  byteOf q.ksCache q.ksPos.val

/-- The bytes that `CTR_APPLY(d)` returns (R159). -/
def ctrOutput (E : Block → Block) : CtrState → List Byte → List Byte
  | _, [] => []
  | r, b :: d => (b ^^^ ctrKeyByte E r) :: ctrOutput E (ctrNext E r) d

/-- The registers after `CTR_APPLY` of `n` bytes (R159): they do not depend on the data. -/
def ctrAdvance (E : Block → Block) : CtrState → Nat → CtrState
  | r, 0 => r
  | r, n + 1 => ctrAdvance E (ctrNext E r) n

/-- The blocks a `CTR_APPLY` of `n` bytes gives the cipher, in order (R81, R159). -/
def ctrInputs (E : Block → Block) : CtrState → Nat → List Block
  | _, 0 => []
  | r, n + 1 => (if ctrStale r then [r.ctr] else []) ++ ctrInputs E (ctrNext E r) n

/-- `CTR_INC` (R156). -/
def execCtrInc (b : Block) (s : State) : Host.Outcome State Fault Refusal :=
  .next (s.returns (.block (inc b)) [])

/-- `CTR_SEED` (R158). -/
def execCtrSeed (b : Block) (s : State) : Host.Outcome State Fault Refusal :=
  .next ({ s with eng := { s.eng with ctr := ctrSeed b } }.returns .none [])

/-- `CTR_APPLY` for any cipher (R159). -/
def ctrApplyUnit (c : Cipher) (d : List Byte) (s : State) : State :=
  { s with eng := { s.eng with ctr := ctrAdvance (s.eng.encrypt c) s.eng.ctr d.length } }.returns
    (.bytes (ctrOutput (s.eng.encrypt c) s.eng.ctr d))
    (encryptEvents (ctrInputs (s.eng.encrypt c) s.eng.ctr d.length))

/-- `CTR_APPLY` (R159). -/
def execCtrApply (d : List Byte) (s : State) : Host.Outcome State Fault Refusal :=
  .next (ctrApplyUnit Config.cipher d s)

end Sys2Proof.Machine
end

