-- ==== Sys2Proof/Machine/Flags.lean ====
section
/-! DEFINITION. The encodings of `PHASE` and `STATUS`, the engine's only flag register (R33), and the tests that
decide a command's status. -/

namespace Sys2Proof.Machine

/-- The value of the 3-bit register `PHASE` (R32). -/
def Phase.code : Phase → BitVec 3
  | .uninitialized => 0
  | .keyed => 1
  | .messageReady => 2
  | .streaming => 3
  | .finalized => 4

/-- The value of the 8-bit register `STATUS` (R99). -/
def Status.code : Status → Byte
  | .ok => 0x00
  | .warnAuthOnly => 0x01
  | .errCount => 0x02
  | .errAuth => 0x03
  | .errUsage => 0x04
  | .errIllegal => 0x05

/-- The phases that accept `INIT_MSG`, `ENC_MSG` and `DEC_MSG`: all but `Uninitialized` (R175, R217). -/
def Phase.hasKey (p : Phase) : Bool := p != .uninitialized

/-- The phases that accept `AUTH`, `CRYPT` and `FINAL_TAG` (R175). -/
def Phase.inMessage (p : Phase) : Bool := p == .messageReady || p == .streaming

/-- A counter and a chunk length that would carry it past `2^CNT_BITS - 1` (R183). -/
def counterOverflows (count n : Nat) : Bool := decide (2 ^ Config.cntBits ≤ count + n)

/-- The count check of `FINAL_TAG` (R191). -/
def countStatus (acnt ccnt : Nat) : Status :=
  if acnt ≠ ccnt ∧ 0 < ccnt then .errCount
  else if acnt = ccnt then .ok
  else .warnAuthOnly

/-- The difference accumulator of `DEC_MSG`: all four byte differences combined with OR (R212, R214). -/
def tagDifference (tag : Tag) (received : List Byte) : Byte :=
  (List.zipWith (fun a b => a ^^^ b) (toBytes tag) received).foldl (fun diff d => diff ||| d) 0

end Sys2Proof.Machine
end

