-- ==== Sys2Proof/Machine/GfDoubler.lean ====
section
/-! DEFINITION. The Galois-field doubler and the subkey deriver (R120 to R125). -/

namespace Sys2Proof.Machine

/-- `DBL(B)`: shift left by one bit across the block, and XOR the reduction constant into the last byte when the
top bit was 1 (R120). -/
def dbl (b : Block) : Block := if b.msb then (b <<< 1) ^^^ Config.gfReduce else b <<< 1

/-- `SUBKEY()` on the engine: `L = E(ZERO)` doubled once and twice (R122). -/
def deriveSubkeys (c : Cipher) (e : Engine) : Engine :=
  let l := e.encrypt c zeroBlock
  { e with padFull := dbl l, padPartial := dbl (dbl l) }

/-- The one cipher call of `SUBKEY` (R81, R122). -/
def subkeyTrace : List InterfaceEvent := encryptEvents [zeroBlock]

/-- `GF_DBL` (R120). -/
def execGfDbl (b : Block) (s : State) : Host.Outcome State Fault Refusal :=
  .next (s.returns (.block (dbl b)) [])

/-- `SUBKEY` for any cipher (R122). -/
def subkeyUnit (c : Cipher) (s : State) : State :=
  { s with eng := deriveSubkeys c s.eng }.returns .none subkeyTrace

/-- `SUBKEY` (R122). -/
def execSubkey (s : State) : Host.Outcome State Fault Refusal :=
  .next (subkeyUnit Config.cipher s)

end Sys2Proof.Machine
end

