-- ==== Sys2Proof/Machine/MacAccumulator.lean ====
section
/-! DEFINITION. The CBC-MAC / OMAC accumulator (R135 to R146). -/

namespace Sys2Proof.Machine

/-- `MAC_START(t)`: the tweak block, full, its encryption pending (R136). -/
def macStart (t : Byte) : Accumulator :=
  ⟨if t = 0 then zeroBlock else t.setWidth 128, 16, 0⟩

/-- The chaining before a byte: a full block is encrypted and filling starts at 0 (R138, R139). -/
def macChain (E : Block → Block) (m : Accumulator) : Accumulator :=
  if m.pos.val = 16 then { m with acc := E m.acc, pos := 0 } else m

/-- One byte absorbed (R138). -/
def macByte (E : Block → Block) (m : Accumulator) (b : Byte) : Accumulator :=
  let r := macChain E m
  ⟨xorByteAt r.acc r.pos.val b, r.pos + 1, r.cnt + 1⟩

/-- `MAC_ABSORB(m, d)` (R138). -/
def macAbsorb (E : Block → Block) (m : Accumulator) (d : List Byte) : Accumulator :=
  d.foldl (macByte E) m

/-- The blocks a `MAC_ABSORB` gives the cipher, in order (R81, R138). -/
def macAbsorbInputs (E : Block → Block) : Accumulator → List Byte → List Block
  | _, [] => []
  | m, b :: d => (if m.pos.val = 16 then [m.acc] else []) ++ macAbsorbInputs E (macByte E m b) d

/-- The final block of `MAC_FINISH`, padded (R142). It is made on a copy (R143). -/
def macFinalBlock (padFull padPartial : Block) (m : Accumulator) : Block :=
  if m.pos.val < 16 then xorByteAt m.acc m.pos.val Config.padByte ^^^ padPartial
  else m.acc ^^^ padFull

/-- `MAC_FINISH(m)` with the pads and the cipher (R142). -/
def macFinish (E : Block → Block) (padFull padPartial : Block) (m : Accumulator) : Block :=
  E (macFinalBlock padFull padPartial m)

/-- `MAC_FINISH(m)` with the engine's registers (R142). -/
def Engine.macFinish (c : Cipher) (e : Engine) (m : Accumulator) : Block :=
  Sys2Proof.Machine.macFinish (e.encrypt c) e.padFull e.padPartial m

/-- `MAC_START` (R136). -/
def execMacStart (t : Byte) (s : State) : Host.Outcome State Fault Refusal :=
  .next (s.returns (.accumulator (macStart t)) [])

/-- `MAC_ABSORB` for any cipher (R138). -/
def macAbsorbUnit (c : Cipher) (m : Accumulator) (d : List Byte) (s : State) : State :=
  s.returns (.accumulator (macAbsorb (s.eng.encrypt c) m d))
    (encryptEvents (macAbsorbInputs (s.eng.encrypt c) m d))

/-- `MAC_ABSORB` (R138). -/
def execMacAbsorb (m : Accumulator) (d : List Byte) (s : State) : Host.Outcome State Fault Refusal :=
  .next (macAbsorbUnit Config.cipher m d s)

/-- `MAC_FINISH` for any cipher (R142, R143): no register is written. -/
def macFinishUnit (c : Cipher) (m : Accumulator) (s : State) : State :=
  s.returns (.block (s.eng.macFinish c m))
    (encryptEvents [macFinalBlock s.eng.padFull s.eng.padPartial m])

/-- `MAC_FINISH` (R142). -/
def execMacFinish (m : Accumulator) (s : State) : Host.Outcome State Fault Refusal :=
  .next (macFinishUnit Config.cipher m s)

end Sys2Proof.Machine
end

