-- ==== Sys2Proof/Machine/Session.lean ====
section
/-! DEFINITION. The session controller's streaming commands (R175 to R195). Each is a function of any cipher, which
the whole-message commands call as a sub-step, and a meaning that runs it with the machine's cipher. -/

namespace Sys2Proof.Machine

/-- `WIPE`: every element of the engine at its reset value, status `OK` (R181). -/
def wipeSession (s : State) : State := { s with eng := Engine.reset }.done .ok .none []

/-- `INIT_KEY`: wipe, derive the key schedule, derive the subkeys, enter `Keyed` (R176, R189). -/
def initWithKey (c : Cipher) (key : Key) (s : State) : State :=
  let keyed := deriveSubkeys c { Engine.reset with ks := some (c.deriveKeySchedule key) }
  { s with eng := { keyed with phase := .keyed } }.done .ok .none (.deriveKeySchedule key :: subkeyTrace)

/-- The nonce accumulator before its finish: tweak 0, the seven nonce bytes (R177, R35). -/
def nonceAccumulator (c : Cipher) (e : Engine) (nonce : Nonce) : Accumulator :=
  macAbsorb (e.encrypt c) (macStart Config.tweakNonce) (toBytes nonce)

/-- `N` for a nonce under the engine's key (R177). -/
def nonceMac (c : Cipher) (e : Engine) (nonce : Nonce) : Block :=
  e.macFinish c (nonceAccumulator c e nonce)

/-- The two cipher calls of `INIT_MSG` (R81, R177). -/
def nonceTrace (c : Cipher) (e : Engine) (nonce : Nonce) : List InterfaceEvent :=
  encryptEvents (macAbsorbInputs (e.encrypt c) (macStart Config.tweakNonce) (toBytes nonce)
    ++ [macFinalBlock e.padFull e.padPartial (nonceAccumulator c e nonce)])

/-- `INIT_MSG` (R177); accepted in every phase but `Uninitialized` (R175), where it discards a message in flight
(R188). -/
def initMessage (c : Cipher) (nonce : Nonce) (s : State) : State :=
  if s.eng.phase.hasKey then
    let n := nonceMac c s.eng nonce
    { s with eng := { s.eng with n := n, ctr := ctrSeed n, mac := macStart Config.tweakCtext, tag := 0,
                                 phase := .messageReady } }.done .ok .none (nonceTrace c s.eng nonce)
  else s.fail .errUsage

/-- `AUTH` of `n` bytes (R178): the phase check first (R182), the counter range (R183), the empty chunk (R184), then
the absorb. -/
def authenticate (c : Cipher) (n : Nat) (s : State) : State :=
  if !s.eng.phase.inMessage then s.fail .errUsage
  else if counterOverflows s.eng.mac.cnt n then s.fail .errUsage
  else if n = 0 then s.done .ok .none []
  else
    let d := s.messageBytes n
    { s with eng := { s.eng with mac := macAbsorb (s.eng.encrypt c) s.eng.mac d, phase := .streaming } }.done
      .ok .none (.memRead 0 n :: encryptEvents (macAbsorbInputs (s.eng.encrypt c) s.eng.mac d))

/-- `CRYPT` of `n` bytes in place (R179), with the checks in the order of `AUTH`. -/
def crypt (c : Cipher) (n : Nat) (s : State) : State :=
  if !s.eng.phase.inMessage then s.fail .errUsage
  else if counterOverflows s.eng.ctr.ccnt n then s.fail .errUsage
  else if n = 0 then s.done .ok .none []
  else
    let d := s.messageBytes n
    let out := ctrOutput (s.eng.encrypt c) s.eng.ctr d
    ({ s with eng := { s.eng with ctr := ctrAdvance (s.eng.encrypt c) s.eng.ctr n, phase := .streaming } }.memWrite
      0 out).done .ok .none
        (.memRead 0 n :: (encryptEvents (ctrInputs (s.eng.encrypt c) s.eng.ctr n) ++ [InterfaceEvent.memWrite 0 n]))

/-- The tag of the ciphertext absorbed so far (R180): the first four bytes of the MAC, XOR those of `N`. -/
def messageTag (c : Cipher) (e : Engine) : Tag := firstFour (e.macFinish c e.mac) ^^^ firstFour e.n

/-- `FINAL_TAG` (R180, R186, R191). It returns the `TAG` register with every status (R98; log 17). -/
def finalizeTag (c : Cipher) (s : State) : State :=
  if !s.eng.phase.inMessage then s.done .errUsage (.tag s.eng.tag) []
  else
    match countStatus s.eng.mac.cnt s.eng.ctr.ccnt with
    | .errCount => { s with eng := { s.eng with tag := 0, phase := .finalized } }.done .errCount (.tag 0) []
    | code =>
      let tag := messageTag c s.eng
      { s with eng := { s.eng with tag := tag, phase := .finalized } }.done code (.tag tag)
        (encryptEvents [macFinalBlock s.eng.padFull s.eng.padPartial s.eng.mac])

/-- `INIT_KEY` (R176). -/
def execInitKey (key : Key) (s : State) : Host.Outcome State Fault Refusal :=
  .next (initWithKey Config.cipher key s)

/-- `INIT_MSG` (R177). -/
def execInitMsg (nonce : Nonce) (s : State) : Host.Outcome State Fault Refusal :=
  .next (initMessage Config.cipher nonce s)

/-- `AUTH` (R178). -/
def execAuth (len : Len) (s : State) : Host.Outcome State Fault Refusal :=
  .next (authenticate Config.cipher len.toNat s)

/-- `CRYPT` (R179). -/
def execCrypt (len : Len) (s : State) : Host.Outcome State Fault Refusal :=
  .next (crypt Config.cipher len.toNat s)

/-- `FINAL_TAG` (R180). -/
def execFinalTag (s : State) : Host.Outcome State Fault Refusal :=
  .next (finalizeTag Config.cipher s)

/-- `WIPE` (R181). -/
def execWipe (s : State) : Host.Outcome State Fault Refusal :=
  .next (wipeSession s)

end Sys2Proof.Machine
end

