-- ==== Sys2Proof/Machine/WholeMessage.lean ====
section
/-! DEFINITION. The session controller's whole-message commands (R210 to R222), made of the streaming commands as
sub-steps (R105). -/

namespace Sys2Proof.Machine

/-- `ENC_MSG` (R210): encrypt before authenticate (R211), then the tag at `BUF[n..n+4)`. -/
def encryptMessage (c : Cipher) (n : Nat) (nonce : Nonce) (s : State) : State :=
  if s.eng.phase.hasKey then
    let s1 := initMessage c nonce s
    let s2 := crypt c n s1
    let s3 := authenticate c n s2
    let s4 := finalizeTag c s3
    (s4.memWrite n (toBytes s4.eng.tag)).done .ok .none
      (s1.trace ++ s2.trace ++ s3.trace ++ s4.trace ++ [InterfaceEvent.memWrite n Config.tagBytes])
  else s.fail .errUsage

/-- `DEC_MSG` (R212): authenticate before decrypt (R211), then the comparison of all four tag bytes (R214). On
`OK` the result is the plaintext, on `ERR_AUTH` it carries no bytes (R215), the buffer keeps what `CRYPT` made and
`TAG` is cleared (R216). -/
def decryptMessage (c : Cipher) (n : Nat) (nonce : Nonce) (s : State) : State :=
  if s.eng.phase.hasKey then
    let rt := s.receivedTag n
    let s1 := initMessage c nonce s
    let s2 := authenticate c n s1
    let s3 := crypt c n s2
    let s4 := finalizeTag c s3
    let trace := InterfaceEvent.memRead n Config.tagBytes :: (s1.trace ++ s2.trace ++ s3.trace ++ s4.trace)
    if tagDifference s4.eng.tag rt = 0 then s4.done .ok (.plain (s4.messageBytes n)) trace
    else { s4 with eng := { s4.eng with tag := 0 } }.done .errAuth .authenticationError trace
  else s.fail .errUsage

/-- `ENC_MSG` (R210). -/
def execEncMsg (len : Len) (nonce : Nonce) (s : State) : Host.Outcome State Fault Refusal :=
  .next (encryptMessage Config.cipher len.toNat nonce s)

/-- `DEC_MSG` (R212). -/
def execDecMsg (len : Len) (nonce : Nonce) (s : State) : Host.Outcome State Fault Refusal :=
  .next (decryptMessage Config.cipher len.toNat nonce s)

end Sys2Proof.Machine
end

