-- ==== Sys2Proof/Machine/Dispatch.lean ====
section
/-! DEFINITION. One arm for each instruction. -/

namespace Sys2Proof.Machine

def exec (i : Instr) (s : State) : Host.Outcome State Fault Refusal :=
  match i with
  | .initKey key => Sys2Proof.Machine.execInitKey key s
  | .initMsg nonce => Sys2Proof.Machine.execInitMsg nonce s
  | .auth len => Sys2Proof.Machine.execAuth len s
  | .crypt len => Sys2Proof.Machine.execCrypt len s
  | .finalTag => Sys2Proof.Machine.execFinalTag s
  | .encMsg len nonce => Sys2Proof.Machine.execEncMsg len nonce s
  | .decMsg len nonce => Sys2Proof.Machine.execDecMsg len nonce s
  | .wipe => Sys2Proof.Machine.execWipe s
  | .gfDbl b => Sys2Proof.Machine.execGfDbl b s
  | .subkey => Sys2Proof.Machine.execSubkey s
  | .macStart tweak => Sys2Proof.Machine.execMacStart tweak s
  | .macAbsorb m d => Sys2Proof.Machine.execMacAbsorb m d s
  | .macFinish m => Sys2Proof.Machine.execMacFinish m s
  | .ctrSeed b => Sys2Proof.Machine.execCtrSeed b s
  | .ctrApply d => Sys2Proof.Machine.execCtrApply d s
  | .ctrInc b => Sys2Proof.Machine.execCtrInc b s

end Sys2Proof.Machine
end

