-- ==== Sys2Proof/Machine/Inputs.lean ====
section
/-! DEFINITION. What the machine does around a command: waiting for the host, taking its input, refusing an illegal
descriptor, resetting. -/

namespace Sys2Proof.Machine

/-- The engine with nothing presented: it waits for the next command (R239; log 8). -/
def waitForHost (s : State) : State := s

/-- The input that is served is consumed (R79). -/
def consumeInput (rest : List HostInput) (s : State) : State := { s with pending := rest }

/-- The operand buffer handed over with a command: its `n` bytes are the whole of `BUF`, and a command without a
buffer leaves the bytes last handed over as they are (R61, R97; log 19). -/
def handOver {n : Nat} (brought : Buffer n) (s : State) : State :=
  { s with buf := if n = 0 then s.buf else brought.cells }

/-- The state in which a presented command is served. -/
def takeInput {n : Nat} (rest : List HostInput) (brought : Buffer n) (s : State) : State :=
  handOver brought (consumeInput rest s)

/-- An illegal descriptor executes as `fail ERR_ILLEGAL`, in every phase (R100, R237). -/
def illegalDescriptor (s : State) : State := s.fail .errIllegal

/-- A platform reset (R260): every element of the engine at its reset value; no buffer is touched (R264). -/
def platformReset (s : State) : State := { s with eng := Engine.reset }.returns .none []

/-- The host's next input put before the ones already waiting. -/
def presentNext (input : HostInput) (s : State) : State := { s with pending := input :: s.pending }

end Sys2Proof.Machine
end

