-- ==== Sys2Proof/Machine/Step.lean ====
section
/-! DEFINITION. One step of the machine: one host input served whole (R19, R73). -/

namespace Sys2Proof.Machine

/-- One step: the next input is taken and served. The decoder comes before every other check (R240). -/
def step (s : State) : Host.Outcome State Fault Refusal :=
  match s.pending with
  | [] => .next (waitForHost s)
  | .reset :: rest => .next (platformReset (consumeInput rest s))
  | .command d brought :: rest =>
    match decode d with
    | .command i => exec i (takeInput rest brought s)
    | .illegal _ => .next (illegalDescriptor (takeInput rest brought s))

/-- `s` with the descriptor of a table word presented as the host's next command, with as many of the bytes last handed
over as the command's buffer has (log 7). -/
def State.withFetchWord (s : State) (nbits w : Nat) : State :=
  presentNext (.command (tableBytes nbits w) (Buffer.window s.buf _)) s

end Sys2Proof.Machine
end

