-- ==== Sys2Proof/Safety.lean ====
section
/-! DEFINITION. What a safe state and a safe run are: the invariants the spec states over reachable states, and the
closed forms the spec gives beside its pseudocode, in whose terms the claims are stated. -/

namespace Sys2Proof.Machine

/-- The phases in which a message has been begun: `N`, the MAC and the CTR registers belong to it (R37, R39). -/
def Phase.messageBegun (p : Phase) : Bool := p == .messageReady || p == .streaming || p == .finalized

/-- The phase after a command that is accepted, and nothing where the command ends with `ERR_USAGE` (R175). The
range check of `AUTH` and `CRYPT` (R183) is not in this table. -/
def phaseAfter : Instr → Phase → Option Phase
  | .initKey _, _ => some .keyed
  | .wipe, _ => some .uninitialized
  | .initMsg _, .uninitialized => none
  | .initMsg _, _ => some .messageReady
  | .auth len, .messageReady => if len = 0 then some .messageReady else some .streaming
  | .auth _, .streaming => some .streaming
  | .auth _, _ => none
  | .crypt len, .messageReady => if len = 0 then some .messageReady else some .streaming
  | .crypt _, .streaming => some .streaming
  | .crypt _, _ => none
  | .finalTag, .messageReady => some .finalized
  | .finalTag, .streaming => some .finalized
  | .finalTag, _ => none
  | .encMsg _ _, .uninitialized => none
  | .encMsg _ _, _ => some .finalized
  | .decMsg _ _, .uninitialized => none
  | .decMsg _ _, _ => some .finalized
  | .gfDbl _, p => some p
  | .subkey, p => some p
  | .macStart _, p => some p
  | .macAbsorb _ _, p => some p
  | .macFinish _, p => some p
  | .ctrSeed _, p => some p
  | .ctrApply _, p => some p
  | .ctrInc _, p => some p

/-- Whether the command would carry a byte counter past `2^CNT_BITS - 1` (R183). -/
def overflowsCounter : Instr → Engine → Bool
  | .auth len, e => counterOverflows e.mac.cnt len.toNat
  | .crypt len, e => counterOverflows e.ctr.ccnt len.toNat
  | _, _ => false

/-- `E(B)` of a state of the machine (R12). -/
abbrev State.E (s : State) : Block → Block := s.eng.encrypt Config.cipher

/-- The CBC chain over whole blocks from a chaining value: `C_(i+1) = E(C_i ^ X_i)` (R144). -/
def cbcChain (E : Block → Block) (c : Block) (xs : List Block) : Block := xs.foldl (fun c x => E (c ^^^ x)) c

/-- The MAC of rule R144 in closed form, over the byte stream `x` = tweak block then message: all blocks but the last
are chained, and the last, which holds 1 to 16 bytes, is padded by its length. -/
def omacOfStream (E : Block → Block) (padFull padPartial : Block) (x : List Byte) : Block :=
  let k := (x.length - 1) / 16
  let whole := (List.range k).map (fun j => ofBytes 128 ((x.drop (16 * j)).take 16))
  let last := x.drop (16 * k)
  let chained := cbcChain E zeroBlock whole
  if last.length = 16 then E (chained ^^^ ofBytes 128 last ^^^ padFull)
  else E (chained ^^^ ofBytes 128 (last ++ 0x80 :: List.replicate (15 - last.length) 0) ^^^ padPartial)

/-- `OMAC_t(M)`: the closed form for tweak `t` and message `M` (R144, R187). -/
def omac (E : Block → Block) (padFull padPartial : Block) (t : Byte) (m : List Byte) : Block :=
  omacOfStream E padFull padPartial (List.replicate 15 0 ++ t :: m)

/-- The keystream of a seed as a function of the stream position (R161). -/
def keystreamByte (E : Block → Block) (seed : Block) (k : Nat) : Byte :=
  byteOf (E (seed + BitVec.ofNat 128 (k / 16))) (k % 16)

/-- `ceil(n / 16)`: the blocks that `n` bytes touch (R81). -/
def blocksFor (n : Nat) : Nat := (n + 15) / 16

/-- The encryptions among the events of a command (R81). -/
def encryptions (trace : List InterfaceEvent) : List Block :=
  trace.filterMap (fun ev => match ev with | .blockEncrypt b => some b | _ => none)

/-- The buffer accesses among the events of a command, in order (R70). -/
def bufferAccesses (trace : List InterfaceEvent) : List InterfaceEvent :=
  trace.filter (fun ev => match ev with | .memRead _ _ => true | .memWrite _ _ => true | _ => false)

/-- The invariants of reachable engine states. -/
structure EngineInv (c : Cipher) (e : Engine) : Prop where
  /-- Without a key every element but `STATUS` is at its reset value (R42, R43, R181). -/
  wiped : e.phase = .uninitialized → e = { Engine.reset with status := e.status }
  /-- With a key, `KS` is a key's schedule (R21). -/
  scheduled : e.phase ≠ .uninitialized → ∃ key, e.ks = some (c.deriveKeySchedule key)
  /-- The padding pair belongs to the current key (R39, R123). -/
  pads : e.phase ≠ .uninitialized → e.padFull = dbl (e.encrypt c zeroBlock) ∧ e.padPartial = dbl e.padFull
  /-- Before a message the message registers are clear (R44, R176). -/
  keyedClear : e.phase = .keyed → e.n = zeroBlock ∧ e.mac = clearedMac ∧ e.ctr = clearedCtr
  /-- `N` is the nonce MAC of some nonce (R39). -/
  nonce : e.phase.messageBegun = true → ∃ x, e.n = nonceMac c e x
  /-- The MAC registers hold the absorption of as many bytes as `ACNT` says (R29, R135). -/
  absorbed : e.phase.messageBegun = true →
    ∃ d : List Byte, d.length = e.mac.cnt ∧ e.mac = macAbsorb (e.encrypt c) (macStart Config.tweakCtext) d
  /-- `MAC_POS` follows from `ACNT` (R37, R145). -/
  macPos : e.phase.messageBegun = true → e.mac.posMatchesCount = true
  /-- `KS_POS` follows from `CCNT` (R38). -/
  ksPos : e.phase.messageBegun = true →
    e.ctr.ksPos.val = if e.ctr.ccnt = 0 then 0 else (e.ctr.ccnt - 1) % 16 + 1
  /-- `CTR` follows from `N` and `CCNT` (R38). -/
  counter : e.phase.messageBegun = true →
    e.ctr.ctr.toNat = (e.n.toNat + blocksFor e.ctr.ccnt) % 2 ^ 128
  /-- `KS_CACHE` follows from `N` and `CCNT` (R38). -/
  cache : e.phase.messageBegun = true →
    e.ctr.ksCache = if e.ctr.ccnt = 0 then zeroBlock
      else e.encrypt c (BitVec.ofNat 128 (e.n.toNat + blocksFor e.ctr.ccnt - 1))
  /-- `MessageReady` means that no byte has been processed (R40). -/
  ready : e.phase = .messageReady → e.mac.cnt = 0 ∧ e.ctr.ccnt = 0
  /-- `Streaming` means that at least one byte has been processed (R40). -/
  streaming : e.phase = .streaming → 0 < e.mac.cnt + e.ctr.ccnt
  /-- The byte counters stay in their registers (R183). -/
  inRange : e.mac.cnt < 2 ^ Config.cntBits ∧ e.ctr.ccnt < 2 ^ Config.cntBits
  /-- A tag stands in `TAG` only after a message's end (R34). -/
  noTag : e.phase ≠ .finalized → e.tag = 0

/-- The invariant of reachable states: the engine's, and the canonical form of the buffer. The buffers that wait with
the host's inputs have theirs by their type. -/
structure State.Inv (s : State) : Prop where
  engine : EngineInv Config.cipher s.eng
  buffer : s.buf.wf = true

/-- What the host sees of a state: `STATUS`, what the command returned, and `BUF` (R41). -/
def State.observed (s : State) : Status × Result × Memory := (s.eng.status, s.result, s.buf)

/-- Two states that differ at most in whether the phase is `MessageReady` or `Streaming` (R41, R185). -/
def sameButStreaming (s t : State) : Prop :=
  s = t ∨ (s.eng.phase.inMessage = true ∧ t = { s with eng := { s.eng with phase := t.eng.phase } } ∧
    t.eng.phase.inMessage = true)

end Sys2Proof.Machine
end

