-- ==== Sys2Proof/Certificates/Slice0/Obligations.lean ====
section
/-! DEFINITION. The statements for the provers. `R<n>` are the spec's rules. In every statement the fields `result` and
`trace` are the model's own ports for what a command returns and does at its interfaces (logs 9 and 10), and `pending`
is the model's own list of the host's inputs (log 7): what a statement says of these fields is in the model's terms. -/

open Sys2Proof Sys2Proof.Machine

/-! ## Encoding -/

/-- Decode and encode agree: every session command, with every operand at every value, is read back from its
descriptor (30_encoding.md, Formats and Decoding). -/
def Obligations.DecodeOfEncodeIsTheCommand : Prop :=
  ∀ i : Instr, i.hostIssuable = true → ∃ d, encode i = some d ∧ decode d = .command i

/-- Each descriptor has one meaning and no bit of it is dropped: the descriptor is the encoding of what it decodes
to (30_encoding.md, Formats and Decoding). -/
def Obligations.EncodeOfDecodeIsTheDescriptor : Prop :=
  ∀ (d : List Byte) (i : Instr), decode d = .command i → encode i = some d

/-- R100: which descriptors are illegal, and that an illegal one executes as `fail ERR_ILLEGAL` in any state. The
input queue is the model's (log 7). -/
def Obligations.IllegalDescriptorsFailWithErrIllegal : Prop :=
  (∀ d : List Byte, (∃ why, decode d = .illegal why) ↔
    ¬ ∃ op rest, d = op :: rest ∧ 1 ≤ op.toNat ∧ op.toNat ≤ 8 ∧
      d.length = [17, 8, 5, 5, 1, 12, 12, 1].getD (op.toNat - 1) 0) ∧
  (∀ (s : State) (d : List Byte) (brought : Buffer (operandLength d)) (rest : List HostInput) (why : IllegalReason),
    s.pending = .command d brought :: rest → decode d = .illegal why →
    step s = .next { s with eng := { s.eng with status := .errIllegal }, pending := rest, result := .none,
                            trace := [] }) ∧
  Status.errIllegal.code = 0x05

/-- R101: the unit operations' opcodes are illegal when the host presents them, whatever follows, and no unit
operation has a descriptor. -/
def Obligations.UnitOperationsAreNotHostIssuable : Prop :=
  (∀ (op : Byte) (rest : List Byte), 0x10 ≤ op.toNat → op.toNat ≤ 0x17 →
    decode (op :: rest) = .illegal (.unitOperation op)) ∧
  (∀ i : Instr, i.hostIssuable = false → encode i = none ∧ 0x10 ≤ i.opcode.toNat ∧ i.opcode.toNat ≤ 0x17)

/-- Descriptors written out from the spec's formats decode to the commands they stand for (95_test_vectors.md,
section 2.7). -/
def Obligations.WrittenDescriptorsDecode : Prop :=
  decode [0x01, 0x00, 0x01, 0x02, 0x03, 0x04, 0x05, 0x06, 0x07, 0x08, 0x09, 0x0A, 0x0B, 0x0C, 0x0D, 0x0E, 0x0F] =
    .command (.initKey 0x000102030405060708090A0B0C0D0E0F#128) ∧
  decode [0x02, 0x00, 0x01, 0x02, 0x03, 0x04, 0x05, 0x06] = .command (.initMsg 0x00010203040506#56) ∧
  decode [0x03, 0x00, 0x00, 0x01, 0x00] = .command (.auth 256#32) ∧
  decode [0x04, 0x01, 0x00, 0x00, 0x00] = .command (.crypt 16777216#32) ∧
  decode [0x05] = .command .finalTag ∧
  decode [0x06, 0x00, 0x00, 0x00, 0x2B, 0x00, 0x01, 0x02, 0x03, 0x04, 0x05, 0x06] =
    .command (.encMsg 43#32 0x00010203040506#56) ∧
  decode [0x07, 0x00, 0x00, 0x00, 0x00, 0xFF, 0xFF, 0xFF, 0xFF, 0xFF, 0xFF, 0xFF] =
    .command (.decMsg 0#32 0xFFFFFFFFFFFFFF#56) ∧
  decode [0x08] = .command .wipe ∧
  decode [] = .illegal .empty ∧ decode [0x00] = .illegal (.noInstruction 0x00) ∧
  decode [0x17] = .illegal (.unitOperation 0x17) ∧ decode [0x05, 0x00] = .illegal (.wrongLength 0x05 2)

/-! ## The step, reset and the invariant -/

/-- A step runs the decoded command, at the state in which its input has been taken: the rest of the inputs still
waiting, and the operand buffer the one handed over, whose length is the command's; a command without a buffer leaves
the bytes last handed over (20_memory.md, sections 1 and 4; 30_encoding.md, section 2; the input queue is the model's,
logs 7 and 19). -/
def Obligations.StepRunsTheDecodedCommand : Prop :=
  ∀ (s : State) (d : List Byte) (brought : Buffer (operandLength d)) (rest : List HostInput) (i : Instr),
    s.pending = .command d brought :: rest → decode d = .command i →
    step s = exec i { s with buf := if bufferLength i = 0 then s.buf else brought.cells, pending := rest }

/-- R42, R264: the value of every element after reset, and that a platform reset, which the model takes as an input
between commands (log 12), gives each of them and touches no buffer. -/
def Obligations.ResetGivesEveryElementItsValue : Prop :=
  (State.reset.eng.ks = none ∧ State.reset.eng.padFull = 0#128 ∧ State.reset.eng.padPartial = 0#128 ∧
    State.reset.eng.n = 0#128 ∧ State.reset.eng.mac.acc = 0#128 ∧ State.reset.eng.mac.pos.val = 0 ∧
    State.reset.eng.mac.cnt = 0 ∧ State.reset.eng.ctr.ctr = 0#128 ∧ State.reset.eng.ctr.ksCache = 0#128 ∧
    State.reset.eng.ctr.ksPos.val = 0 ∧ State.reset.eng.ctr.ccnt = 0 ∧
    State.reset.eng.phase = .uninitialized ∧ State.reset.eng.phase.code = 0 ∧
    State.reset.eng.status = .ok ∧ State.reset.eng.status.code = 0x00 ∧ State.reset.eng.tag = 0#32) ∧
  (∀ (s : State) (rest : List HostInput), s.pending = .reset :: rest →
    ∃ t, step s = .next t ∧ t.eng = State.reset.eng ∧ t.buf = s.buf ∧ t.pending = rest)

/-- Nothing stops the engine: in every state, reachable or not, a step answers a next state, and it consumes exactly
one of the host's inputs (60_exceptions.md, section 2: there is no trap mechanism; the queue is the model's,
log 7). -/
def Obligations.StepAlwaysAnswersNext : Prop :=
  ∀ s : State, ∃ t, step s = .next t ∧ t.pending = s.pending.tail

/-- The invariants of reachable states (10_state.md, section 7: positions and counters, the CTR registers as a
function of `N` and `CCNT`, the padding pair of the current key, `N` a nonce's MAC, the meaning of the phases) and
the canonical form of every buffer are kept by every step. -/
def Obligations.EveryStepKeepsTheInvariant : Prop :=
  ∀ s t : State, s.Inv → step s = .next t → t.Inv

/-- The invariant holds right after reset. -/
def Obligations.InvariantHoldsAtReset : Prop := State.reset.Inv

/-- 30_encoding.md, section 3: the numeric values of the status codes. The phases' values are those of 10_state.md, section 4. -/
def Obligations.StatusCodesHaveTheirValues : Prop :=
  (Status.ok.code = 0x00 ∧ Status.warnAuthOnly.code = 0x01 ∧ Status.errCount.code = 0x02 ∧
    Status.errAuth.code = 0x03 ∧ Status.errUsage.code = 0x04 ∧ Status.errIllegal.code = 0x05) ∧
  (Phase.uninitialized.code = 0 ∧ Phase.keyed.code = 1 ∧ Phase.messageReady.code = 2 ∧ Phase.streaming.code = 3 ∧
    Phase.finalized.code = 4)

/-! ## The Galois-field doubler -/

/-- R120: `GF_DBL` completes in every state, changes nothing but what it returns, and returns the doubled block, in
the integer form and byte by byte. -/
def Obligations.GfDblDoublesTheBlock : Prop :=
  ∀ (b : Block) (s : State), ∃ r : Block,
    exec (.gfDbl b) s = .next { s with result := .block r, trace := [] } ∧
    r.toNat = (2 * b.toNat % 2 ^ 128) ^^^ (if 2 ^ 127 ≤ b.toNat then 0x87 else 0) ∧
    (∀ i < 15, (byteOf r i).toNat = (byteOf b i).toNat * 2 % 256 + (byteOf b (i + 1)).toNat / 128) ∧
    (byteOf r 15).toNat = ((byteOf b 15).toNat * 2 % 256) ^^^ (if 128 ≤ (byteOf b 0).toNat then 0x87 else 0)

/-- Doubling is linear over XOR and a bijection on blocks (40_gf_doubler.md, "Laws of doubling"). -/
def Obligations.DoublingIsALinearBijection : Prop :=
  (∀ a b : Block, dbl (a ^^^ b) = dbl a ^^^ dbl b) ∧ Function.Bijective dbl

/-- R122: `SUBKEY` completes in every state and writes `PAD_FULL` and `PAD_PARTIAL`, the encrypted zero block doubled
once and twice, and no other element; its one cipher call is on the zero block. -/
def Obligations.SubkeyWritesThePaddingPair : Prop :=
  ∀ s : State, exec .subkey s =
    .next { s with eng := { s.eng with padFull := dbl (s.E 0), padPartial := dbl (dbl (s.E 0)) },
                   result := .none, trace := [.blockEncrypt 0] }

/-! ## The MAC accumulator -/

/-- R136: `MAC_START` completes in every state, changes nothing but what it returns, and returns the tweak block,
full, with count 0. -/
def Obligations.MacStartReturnsTheTweakBlock : Prop :=
  ∀ (t : Byte) (s : State), ∃ acc : Block,
    exec (.macStart t) s = .next { s with result := .accumulator ⟨acc, 16, 0⟩, trace := [] } ∧
    (∀ i < 15, byteOf acc i = 0) ∧ byteOf acc 15 = t

/-- R138: `MAC_ABSORB` completes in every state and changes nothing but what it returns: of no bytes, the same
accumulator; of a byte and more bytes, what the more bytes give from the accumulator in which a full block has been
encrypted and the byte has been XORed in at the fill position. -/
def Obligations.MacAbsorbTakesOneByteAtATime : Prop :=
  ∀ (m : Accumulator) (s : State),
    exec (.macAbsorb m []) s = .next { s with result := .accumulator m, trace := [] } ∧
    ∀ (b : Byte) (d : List Byte), ∃ m' : Accumulator,
      (∀ j < 16, byteOf m'.acc j =
        if j = (if m.pos.val = 16 then 0 else m.pos.val) then
          byteOf (if m.pos.val = 16 then s.E m.acc else m.acc) j ^^^ b
        else byteOf (if m.pos.val = 16 then s.E m.acc else m.acc) j) ∧
      m'.pos.val = (if m.pos.val = 16 then 0 else m.pos.val) + 1 ∧ m'.cnt = m.cnt + 1 ∧
      ∃ r tr tr', exec (.macAbsorb m (b :: d)) s = .next { s with result := .accumulator r, trace := tr } ∧
        exec (.macAbsorb m' d) s = .next { s with result := .accumulator r, trace := tr' }

/-- R142: `MAC_FINISH` completes in every state, writes no register, and returns the encryption of the padded
copy. -/
def Obligations.MacFinishPadsAndEncrypts : Prop :=
  ∀ (m : Accumulator) (s : State), ∃ t : Block,
    exec (.macFinish m) s = .next { s with result := .block (s.E t), trace := [.blockEncrypt t] } ∧
    (m.pos.val < 16 → ∀ j < 16, byteOf t j =
      byteOf m.acc j ^^^ (if j = m.pos.val then 0x80 else 0) ^^^ byteOf s.eng.padPartial j) ∧
    (m.pos.val = 16 → t = m.acc ^^^ s.eng.padFull)

/-- The accumulator, byte by byte with lazy encryption, computes OMAC of the tweak block followed by the message, for
every cipher, tweak and message (41_mac_accumulator.md, "Closed form"). -/
def Obligations.MacIsOmacOfTweakBlockAndMessage : Prop :=
  ∀ (c : Cipher) (e : Engine) (t : Byte) (d : List Byte),
    e.macFinish c (macAbsorb (e.encrypt c) (macStart t) d) = omac (e.encrypt c) e.padFull e.padPartial t d

/-! ## The CTR engine -/

/-- R156: `CTR_INC` completes in every state, changes nothing but what it returns, and adds 1 with the carry through
all 16 bytes, in the integer form and byte by byte. -/
def Obligations.CtrIncCarriesThroughAllBytes : Prop :=
  ∀ (b : Block) (s : State), ∃ r : Block,
    exec (.ctrInc b) s = .next { s with result := .block r, trace := [] } ∧
    r.toNat = (b.toNat + 1) % 2 ^ 128 ∧
    (∀ i < 16, (∀ j, i < j → j < 16 → byteOf b j = 0xFF) → byteOf r i = byteOf b i + 1) ∧
    (∀ i < 16, (∃ j, i < j ∧ j < 16 ∧ byteOf b j ≠ 0xFF) → byteOf r i = byteOf b i)

/-- R158: `CTR_SEED` completes in every state, writes the four CTR registers and no other element, and calls no
cipher. -/
def Obligations.CtrSeedWritesTheCtrRegisters : Prop :=
  ∀ (b : Block) (s : State), exec (.ctrSeed b) s =
    .next { s with eng := { s.eng with ctr := { ctr := b, ksCache := 0, ksPos := 0, ccnt := 0 } },
                   result := .none, trace := [] }

/-- R159: `CTR_APPLY` completes in every state: of no bytes, it changes and returns nothing; of a byte and more
bytes, a fresh keystream block is made where the cache is exhausted or at the start, the byte meets the keystream
byte at the fill position, and the rest goes on from there. -/
def Obligations.CtrApplyTakesOneByteAtATime : Prop :=
  ∀ s : State,
    exec (.ctrApply []) s = .next { s with result := .bytes [], trace := [] } ∧
    ∀ (b : Byte) (d : List Byte), ∃ q : CtrState,
      q.ksPos.val < 16 ∧
      ((16 ≤ s.eng.ctr.ksPos.val ∨ s.eng.ctr.ccnt = 0) →
        q = { ctr := s.eng.ctr.ctr + 1, ksCache := s.E s.eng.ctr.ctr, ksPos := 0, ccnt := s.eng.ctr.ccnt }) ∧
      (¬ (16 ≤ s.eng.ctr.ksPos.val ∨ s.eng.ctr.ccnt = 0) → q = s.eng.ctr) ∧
      ∃ (u : State) (out : List Byte) (tr tr' : List InterfaceEvent),
        exec (.ctrApply (b :: d)) s =
          .next { u with result := .bytes ((b ^^^ byteOf q.ksCache q.ksPos.val) :: out), trace := tr } ∧
        exec (.ctrApply d) { s with eng := { s.eng with
            ctr := { q with ksPos := q.ksPos + 1, ccnt := q.ccnt + 1 } } } =
          .next { u with result := .bytes out, trace := tr' }

/-- From a seed, the `k`-th byte meets byte `k mod 16` of the encryption of the seed plus `k / 16`, and the registers
follow from the seed and the number of bytes; no other element changes (42_ctr_engine.md, "Closed form"). -/
def Obligations.KeystreamIsTheEncryptedCounterSequence : Prop :=
  ∀ (s : State) (seed : Block) (d : List Byte),
    s.eng.ctr = { ctr := seed, ksCache := 0, ksPos := 0, ccnt := 0 } →
    ∃ (r : CtrState) (out : List Byte) (tr : List InterfaceEvent),
      exec (.ctrApply d) s =
        .next { s with eng := { s.eng with ctr := r }, result := .bytes out, trace := tr } ∧
      out.length = d.length ∧
      (∀ k < d.length, out.getD k 0 =
        d.getD k 0 ^^^ byteOf (s.E (seed + BitVec.ofNat 128 (k / 16))) (k % 16)) ∧
      r.ccnt = d.length ∧ r.ctr.toNat = (seed.toNat + (d.length + 15) / 16) % 2 ^ 128 ∧
      r.ksPos.val = (if d.length = 0 then 0 else (d.length - 1) % 16 + 1) ∧
      r.ksCache = (if d.length = 0 then 0 else s.E (seed + BitVec.ofNat 128 ((d.length + 15) / 16 - 1)))

/-- `CTR_APPLY` is self-inverse: from equal CTR registers, applying it to its own output restores the data
(42_ctr_engine.md, "Self-inverse"). -/
def Obligations.CtrApplyIsSelfInverse : Prop :=
  ∀ (s : State) (d : List Byte), ∃ (t u : State) (out : List Byte),
    exec (.ctrApply d) s = .next t ∧ t.result = .bytes out ∧
    exec (.ctrApply out) s = .next u ∧ u.result = .bytes d ∧ u.eng = t.eng

/-! ## The session controller -/

/-- R181: `WIPE` completes in every state: every element has its reset value, and no buffer is touched. -/
def Obligations.WipeClearsEveryElement : Prop :=
  ∀ s : State, exec .wipe s =
    .next { s with
      eng := { ks := none, padFull := 0, padPartial := 0, n := 0, mac := { acc := 0, pos := 0, cnt := 0 },
               ctr := { ctr := 0, ksCache := 0, ksPos := 0, ccnt := 0 }, phase := .uninitialized, status := .ok,
               tag := 0 },
      result := .none, trace := [] }

/-- R176: `INIT_KEY` completes in every state: the key schedule and the padding pair of the key are installed, every
other element is cleared, and the phase is `Keyed`. -/
def Obligations.InitKeyInstallsTheKey : Prop :=
  ∀ (key : Key) (s : State), ∃ t : State, exec (.initKey key) s = .next t ∧
    t.eng.ks = some (Config.deriveKeySchedule key) ∧
    t.eng.padFull = dbl (Config.blockEncrypt (Config.deriveKeySchedule key) 0) ∧
    t.eng.padPartial = dbl t.eng.padFull ∧
    t.eng.n = 0 ∧ t.eng.mac = { acc := 0, pos := 0, cnt := 0 } ∧
    t.eng.ctr = { ctr := 0, ksCache := 0, ksPos := 0, ccnt := 0 } ∧ t.eng.tag = 0 ∧
    t.eng.phase = .keyed ∧ t.eng.status = .ok ∧
    t.buf = s.buf ∧ t.pending = s.pending ∧ t.result = .none ∧
    t.trace = [.deriveKeySchedule key, .blockEncrypt 0]

/-- R177: `INIT_MSG` is refused in `Uninitialized` and completes in every other phase: `N` is the nonce's MAC, in the
rule's closed form, the CTR engine is seeded with it, the MAC is started with tweak 2, and the key, the pads and the
buffer stay. -/
def Obligations.InitMsgBeginsAMessage : Prop :=
  ∀ (nonce : Nonce) (s : State),
    (s.eng.phase = .uninitialized → exec (.initMsg nonce) s =
      .next { s with eng := { s.eng with status := .errUsage }, result := .none, trace := [] }) ∧
    (s.eng.phase ≠ .uninitialized → ∃ x n : Block,
      x = (s.E 0 ^^^ (nonce ++ 0x80#8 ++ 0#64)) ^^^ s.eng.padPartial ∧ n = s.E x ∧
      exec (.initMsg nonce) s =
        .next { s with
          eng := { s.eng with n := n, mac := { acc := 2, pos := 16, cnt := 0 },
                              ctr := { ctr := n, ksCache := 0, ksPos := 0, ccnt := 0 }, tag := 0,
                              phase := .messageReady, status := .ok },
          result := .none, trace := [.blockEncrypt 0, .blockEncrypt x] })

/-- R178: `AUTH` is refused outside a message and where `ACNT` would pass `2^32 - 1`; of no bytes it changes nothing
but `STATUS`; else it completes: the bytes of the buffer are absorbed, `ACNT` grows by their number, the phase is
`Streaming`, and nothing else changes, no byte of the buffer among it. The buffer is read once, and the number of `E`
calls is the rule's wherever `MAC_POS` and `ACNT` match (R145). -/
def Obligations.AuthAbsorbsTheChunk : Prop :=
  ∀ (len : Len) (s : State),
    ((s.eng.phase ≠ .messageReady ∧ s.eng.phase ≠ .streaming) ∨ 2 ^ 32 ≤ s.eng.mac.cnt + len.toNat →
      exec (.auth len) s =
        .next { s with eng := { s.eng with status := .errUsage }, result := .none, trace := [] }) ∧
    ((s.eng.phase = .messageReady ∨ s.eng.phase = .streaming) → s.eng.mac.cnt + len.toNat < 2 ^ 32 →
      (len.toNat = 0 → exec (.auth len) s =
        .next { s with eng := { s.eng with status := .ok }, result := .none, trace := [] }) ∧
      (len.toNat ≠ 0 → ∃ (m : Accumulator) (tr : List InterfaceEvent),
        m = macAbsorb s.E s.eng.mac (s.buf.readBytes 0 len.toNat) ∧ m.cnt = s.eng.mac.cnt + len.toNat ∧
        bufferAccesses tr = [.memRead 0 len.toNat] ∧
        (s.eng.mac.posMatchesCount = true → (encryptions tr).length =
          (s.eng.mac.cnt + len.toNat + 15) / 16 - (s.eng.mac.cnt + 15) / 16) ∧
        exec (.auth len) s =
          .next { s with eng := { s.eng with mac := m, phase := .streaming, status := .ok },
                         result := .none, trace := tr }))

/-- R179: `CRYPT` is refused outside a message and where `CCNT` would pass `2^32 - 1`; of no bytes it changes nothing
but `STATUS`; else it completes: byte `a` of the buffer below `LEN` meets the keystream byte `a` further on, no other
byte changes, the CTR registers advance by `LEN`, the phase is `Streaming`, and no other element changes. The buffer is
read and written once, and the number of `E` calls is the rule's wherever `KS_POS` and `CCNT` match (R38). -/
def Obligations.CryptAppliesTheKeystream : Prop :=
  ∀ (len : Len) (s : State),
    ((s.eng.phase ≠ .messageReady ∧ s.eng.phase ≠ .streaming) ∨ 2 ^ 32 ≤ s.eng.ctr.ccnt + len.toNat →
      exec (.crypt len) s =
        .next { s with eng := { s.eng with status := .errUsage }, result := .none, trace := [] }) ∧
    ((s.eng.phase = .messageReady ∨ s.eng.phase = .streaming) → s.eng.ctr.ccnt + len.toNat < 2 ^ 32 →
      (len.toNat = 0 → exec (.crypt len) s =
        .next { s with eng := { s.eng with status := .ok }, result := .none, trace := [] }) ∧
      (len.toNat ≠ 0 → ∃ t : State, exec (.crypt len) s = .next t ∧
        t.eng = { s.eng with ctr := ctrAdvance s.E s.eng.ctr len.toNat, phase := .streaming, status := .ok } ∧
        t.eng.ctr.ccnt = s.eng.ctr.ccnt + len.toNat ∧
        (∀ a < len.toNat, t.buf.read a = s.buf.read a ^^^ ctrKeyByte s.E (ctrAdvance s.E s.eng.ctr a)) ∧
        (∀ a, len.toNat ≤ a → t.buf.read a = s.buf.read a) ∧
        t.buf.readBytes 0 len.toNat = ctrOutput s.E s.eng.ctr (s.buf.readBytes 0 len.toNat) ∧
        t.pending = s.pending ∧ t.result = .none ∧
        bufferAccesses t.trace = [.memRead 0 len.toNat, .memWrite 0 len.toNat] ∧
        (s.eng.ctr.ksPos.val = (if s.eng.ctr.ccnt = 0 then 0 else (s.eng.ctr.ccnt - 1) % 16 + 1) →
          (encryptions t.trace).length =
            (s.eng.ctr.ccnt + len.toNat + 15) / 16 - (s.eng.ctr.ccnt + 15) / 16)))

/-- R180, R191: `FINAL_TAG` is refused outside a message; else it completes with the status of the count check, the
phase `Finalized` and the tag, or no tag on `ERR_COUNT`, and no other element and no byte of the buffer changes. It
calls the cipher once, and not at all without a tag. What it returns on `ERR_USAGE` (log 17) is left out here. -/
def Obligations.FinalTagChecksTheCountsAndMakesTheTag : Prop :=
  ∀ s : State,
    (s.eng.phase ≠ .messageReady → s.eng.phase ≠ .streaming → ∃ r : Result, exec .finalTag s =
      .next { s with eng := { s.eng with status := .errUsage }, result := r, trace := [] }) ∧
    ((s.eng.phase = .messageReady ∨ s.eng.phase = .streaming) →
      (s.eng.mac.cnt ≠ s.eng.ctr.ccnt → 0 < s.eng.ctr.ccnt → exec .finalTag s =
        .next { s with eng := { s.eng with tag := 0, phase := .finalized, status := .errCount },
                       result := .tag 0, trace := [] }) ∧
      (s.eng.mac.cnt = s.eng.ctr.ccnt ∨ s.eng.ctr.ccnt = 0 → ∃ (tag : Tag) (tr : List InterfaceEvent),
        (∀ i < 4, byteOf tag i =
          byteOf (s.eng.macFinish Config.cipher s.eng.mac) i ^^^ byteOf s.eng.n i) ∧
        tr.length = 1 ∧ (encryptions tr).length = 1 ∧
        exec .finalTag s =
          .next { s with
            eng := { s.eng with tag := tag, phase := .finalized,
                                status := if s.eng.mac.cnt = s.eng.ctr.ccnt then .ok else .warnAuthOnly },
            result := .tag tag, trace := tr }))

/-- 43_session.md, section 1: the phase table, for every session command and every phase: the phase after an accepted command, and
`ERR_USAGE` with nothing else changed where the table or the counter range refuses it; an illegal descriptor leaves
the phase. -/
def Obligations.CommandsFollowThePhaseTable : Prop :=
  (∀ (i : Instr) (s : State), i.hostIssuable = true → ∃ t, exec i s = .next t ∧
    (phaseAfter i s.eng.phase = none ∨ overflowsCounter i s.eng = true →
      t.eng = { s.eng with status := .errUsage } ∧ t.buf = s.buf) ∧
    (∀ p, phaseAfter i s.eng.phase = some p → overflowsCounter i s.eng = false →
      t.eng.phase = p ∧ t.eng.status ≠ .errUsage)) ∧
  (∀ (s t : State) (d : List Byte) (brought : Buffer (operandLength d)) (rest : List HostInput) (why : IllegalReason),
    s.pending = .command d brought :: rest → decode d = .illegal why → step s = .next t →
    t.eng.phase = s.eng.phase)

/-- A usage error is precise: whichever session command reports it, every other element of the engine, the buffer
and the waiting inputs are exactly as before (60_exceptions.md, section 2: "the state and `BUF` are exactly as before
the command"). -/
def Obligations.UsageErrorsChangeNothing : Prop :=
  ∀ (i : Instr) (s t : State), i.hostIssuable = true → exec i s = .next t → t.eng.status = .errUsage →
    t.eng = { s.eng with status := .errUsage } ∧ t.buf = s.buf ∧ t.pending = s.pending

/-- Which statuses each session command can report, from every state (60_exceptions.md, section 1: "`INIT_KEY` and
`WIPE` can only report `OK`. `ENC_MSG` can report only `OK` and `ERR_USAGE`."; 44_whole_message.md, section 3). -/
def Obligations.EachCommandReportsItsStatuses : Prop :=
  ∀ (i : Instr) (s t : State), exec i s = .next t →
    match i with
    | .initKey _ | .wipe => t.eng.status = .ok
    | .initMsg _ | .auth _ | .crypt _ | .encMsg _ _ => t.eng.status = .ok ∨ t.eng.status = .errUsage
    | .finalTag => t.eng.status = .ok ∨ t.eng.status = .warnAuthOnly ∨ t.eng.status = .errCount ∨
        t.eng.status = .errUsage
    | .decMsg _ _ => t.eng.status = .ok ∨ t.eng.status = .errAuth ∨ t.eng.status = .errUsage
    | .gfDbl _ | .subkey | .macStart _ | .macAbsorb _ _ | .macFinish _ | .ctrSeed _ | .ctrApply _ | .ctrInc _ =>
        t.eng.status = s.eng.status

/-- Issuing `INIT_KEY`, `INIT_MSG` or `WIPE` twice in a row with the same operand leaves the same state as once
(20_memory.md, section 3, "Side effects and idempotency"). -/
def Obligations.InitialisationIsIdempotent : Prop :=
  ∀ (i : Instr) (s t : State), ((∃ key, i = .initKey key) ∨ (∃ x, i = .initMsg x) ∨ i = .wipe) →
    exec i s = .next t → exec i t = .next t

/-- The key schedule is written by `INIT_KEY` and `WIPE` alone, and the padding pair by these and by `SUBKEY`, which
runs inside `INIT_KEY`: no other instruction changes them, whatever its status (10_state.md, section 2). -/
def Obligations.KeyMaterialIsWrittenByKeyCommandsOnly : Prop :=
  ∀ (i : Instr) (s t : State), exec i s = .next t → (∀ key, i ≠ .initKey key) → i ≠ .wipe →
    t.eng.ks = s.eng.ks ∧ (i ≠ .subkey → t.eng.padFull = s.eng.padFull ∧ t.eng.padPartial = s.eng.padPartial)

/-- `AUTH` in two chunks is `AUTH` of their concatenation: the engine is left in the same state (43_session.md,
section 8, "Interleaving"; 41_mac_accumulator.md, "Chunking equivalence"). -/
def Obligations.AuthChunksAreOneChunk : Prop :=
  ∀ (s : State) (l1 l2 l : Len) (m1 m2 m : Memory),
    (s.eng.phase = .messageReady ∨ s.eng.phase = .streaming) →
    l.toNat = l1.toNat + l2.toNat → s.eng.mac.cnt + l.toNat < 2 ^ 32 →
    m.readBytes 0 l.toNat = m1.readBytes 0 l1.toNat ++ m2.readBytes 0 l2.toNat →
    ∃ t1 t2 t, exec (.auth l1) { s with buf := m1 } = .next t1 ∧
      exec (.auth l2) { t1 with buf := m2 } = .next t2 ∧ exec (.auth l) { s with buf := m } = .next t ∧
      t2.eng = t.eng ∧ t.eng.status = .ok

/-- `CRYPT` in two chunks is `CRYPT` of their concatenation: the same output bytes, and the engine in the same state
(43_session.md, section 8, "Interleaving"; 42_ctr_engine.md, "Chunking equivalence"). -/
def Obligations.CryptChunksAreOneChunk : Prop :=
  ∀ (s : State) (l1 l2 l : Len) (m1 m2 m : Memory),
    (s.eng.phase = .messageReady ∨ s.eng.phase = .streaming) →
    l.toNat = l1.toNat + l2.toNat → s.eng.ctr.ccnt + l.toNat < 2 ^ 32 →
    m.readBytes 0 l.toNat = m1.readBytes 0 l1.toNat ++ m2.readBytes 0 l2.toNat →
    ∃ t1 t2 t, exec (.crypt l1) { s with buf := m1 } = .next t1 ∧
      exec (.crypt l2) { t1 with buf := m2 } = .next t2 ∧ exec (.crypt l) { s with buf := m } = .next t ∧
      t2.eng = t.eng ∧ t.eng.status = .ok ∧
      t.buf.readBytes 0 l.toNat = t1.buf.readBytes 0 l1.toNat ++ t2.buf.readBytes 0 l2.toNat

/-- `AUTH` and `CRYPT` commute: they share no register, so either order on the same bytes gives the same engine state
and the same output bytes (43_session.md, section 8, "Interleaving"). -/
def Obligations.AuthAndCryptCommute : Prop :=
  ∀ (s : State) (la lc : Len) (ma mc : Memory),
    (s.eng.phase = .messageReady ∨ s.eng.phase = .streaming) →
    s.eng.mac.cnt + la.toNat < 2 ^ 32 → s.eng.ctr.ccnt + lc.toNat < 2 ^ 32 →
    ∃ a1 a2 b1 b2, exec (.auth la) { s with buf := ma } = .next a1 ∧
      exec (.crypt lc) { a1 with buf := mc } = .next a2 ∧
      exec (.crypt lc) { s with buf := mc } = .next b1 ∧
      exec (.auth la) { b1 with buf := ma } = .next b2 ∧
      a2.eng = b2.eng ∧ a2.buf = b1.buf

/-- The host cannot tell `MessageReady` from `Streaming`: states that differ in no more than that answer every
session command alike, and still differ in no more than that (10_state.md, section 8; 43_session.md, section 8,
"Entering `Streaming`"). -/
def Obligations.MessageReadyAndStreamingAreIndistinguishable : Prop :=
  ∀ (i : Instr) (s t : State), i.hostIssuable = true → sameButStreaming s t →
    ∃ s' t', exec i s = .next s' ∧ exec i t = .next t' ∧ s'.observed = t'.observed ∧ sameButStreaming s' t'

/-- The tag of a message is OMAC with tweak 2 of the authenticated bytes, its first four bytes XOR those of `N`,
whenever `FINAL_TAG` makes one, with `OK` and with `WARN_AUTH_ONLY` alike (43_session.md, section 6, "Closed form of
the tag"). -/
def Obligations.TagIsOmacOfTheAuthenticatedBytes : Prop :=
  ∀ (s : State) (d : List Byte), (s.eng.phase = .messageReady ∨ s.eng.phase = .streaming) →
    s.eng.mac = macAbsorb s.E (macStart 2) d → (s.eng.ctr.ccnt = d.length ∨ s.eng.ctr.ccnt = 0) →
    ∃ t, exec .finalTag s = .next t ∧ t.eng.phase = .finalized ∧
      t.eng.status = (if s.eng.ctr.ccnt = d.length then .ok else .warnAuthOnly) ∧
      (∀ i < 4, byteOf t.eng.tag i =
        byteOf (omac s.E s.eng.padFull s.eng.padPartial 2 d) i ^^^ byteOf s.eng.n i)

/-! ## The whole-message commands -/

/-- R210: `ENC_MSG` is refused in `Uninitialized`; else it completes with `OK` and is `INIT_MSG`, `CRYPT`, `AUTH` of
the ciphertext and `FINAL_TAG` in this order, each accepted, and then the tag at the four bytes after the message. -/
def Obligations.EncMsgIsTheFourCommandsAndTheTag : Prop :=
  ∀ (len : Len) (nonce : Nonce) (s : State),
    (s.eng.phase = .uninitialized → exec (.encMsg len nonce) s =
      .next { s with eng := { s.eng with status := .errUsage }, result := .none, trace := [] }) ∧
    (s.eng.phase ≠ .uninitialized → ∃ s1 s2 s3 s4 t,
      exec (.initMsg nonce) s = .next s1 ∧ exec (.crypt len) s1 = .next s2 ∧ exec (.auth len) s2 = .next s3 ∧
      exec .finalTag s3 = .next s4 ∧ s1.eng.status = .ok ∧ s2.eng.status = .ok ∧ s3.eng.status = .ok ∧
      s4.eng.status = .ok ∧
      exec (.encMsg len nonce) s = .next t ∧ t.eng = s4.eng ∧ t.pending = s.pending ∧ t.result = .none ∧
      (∀ i < 4, t.buf.read (len.toNat + i) = byteOf t.eng.tag i) ∧
      (∀ a, a < len.toNat ∨ len.toNat + 4 ≤ a → t.buf.read a = s4.buf.read a))

/-- R212: `DEC_MSG` is refused in `Uninitialized`; else it completes and is `INIT_MSG`, `AUTH`, `CRYPT` and
`FINAL_TAG` in this order, each accepted, and then the comparison with the four bytes after the message: where all
four agree, `OK`; where any differs, `ERR_AUTH` with `TAG` cleared. The received tag's bytes are not written. -/
def Obligations.DecMsgIsTheFourCommandsAndTheComparison : Prop :=
  ∀ (len : Len) (nonce : Nonce) (s : State),
    (s.eng.phase = .uninitialized → exec (.decMsg len nonce) s =
      .next { s with eng := { s.eng with status := .errUsage }, result := .none, trace := [] }) ∧
    (s.eng.phase ≠ .uninitialized → ∃ s1 s2 s3 s4 t,
      exec (.initMsg nonce) s = .next s1 ∧ exec (.auth len) s1 = .next s2 ∧ exec (.crypt len) s2 = .next s3 ∧
      exec .finalTag s3 = .next s4 ∧ s1.eng.status = .ok ∧ s2.eng.status = .ok ∧ s3.eng.status = .ok ∧
      s4.eng.status = .ok ∧
      exec (.decMsg len nonce) s = .next t ∧ t.buf = s4.buf ∧ t.pending = s.pending ∧
      ((∀ i < 4, s.buf.read (len.toNat + i) = byteOf s4.eng.tag i) →
        t.eng = s4.eng ∧ t.result = .plain (t.buf.readBytes 0 len.toNat)) ∧
      ((∃ i < 4, s.buf.read (len.toNat + i) ≠ byteOf s4.eng.tag i) →
        t.eng = { s4.eng with tag := 0, status := .errAuth } ∧ t.result = .authenticationError) ∧
      (∀ i < 4, t.buf.read (len.toNat + i) = s.buf.read (len.toNat + i)))

/-- R215: the release gate of `DEC_MSG`, from every state: with `OK` the result is the message bytes of the buffer,
with `ERR_AUTH` it is `AuthenticationError` and carries no bytes, and there is no plaintext with any other status. -/
def Obligations.DecMsgReleasesPlaintextOnlyOnOk : Prop :=
  ∀ (len : Len) (nonce : Nonce) (s : State), ∃ t, exec (.decMsg len nonce) s = .next t ∧
    (t.eng.status = .ok → t.result = .plain (t.buf.readBytes 0 len.toNat)) ∧
    (t.eng.status = .errAuth → t.result = .authenticationError) ∧
    (t.eng.status ≠ .ok → ∀ d, t.result ≠ .plain d)

/-- What `ENC_MSG` computes, in closed form, for every state with a key: `N` is OMAC with tweak 0 of the nonce, each
ciphertext byte is the plaintext byte XOR the keystream byte of its position from `N`, the tag is OMAC with tweak 2 of
the ciphertext, cut to four bytes, XOR `N`, and stands after the message, and no other byte of the buffer changes
(43_session.md, "Closed form of the tag"; 42_ctr_engine.md, "Closed form"; 44_whole_message.md, section 1). -/
def Obligations.EncMsgIsCtrThenOmac : Prop :=
  ∀ (len : Len) (nonce : Nonce) (s : State), s.eng.phase ≠ .uninitialized →
    ∃ t, exec (.encMsg len nonce) s = .next t ∧ t.eng.status = .ok ∧
      t.eng.n = omac s.E s.eng.padFull s.eng.padPartial 0 (toBytes nonce) ∧
      (∀ k < len.toNat, t.buf.read k = s.buf.read k ^^^ keystreamByte s.E t.eng.n k) ∧
      (∀ i < 4, t.buf.read (len.toNat + i) =
        byteOf (omac s.E s.eng.padFull s.eng.padPartial 2 (t.buf.readBytes 0 len.toNat)) i ^^^
          byteOf t.eng.n i) ∧
      (∀ a, len.toNat + 4 ≤ a → t.buf.read a = s.buf.read a)

/-- Round trip, for every cipher and every message: what a session encrypts, any session with the same key decrypts
with the same nonce, in whatever phase and with whatever message in flight, with `OK` and the plaintext
(44_whole_message.md, section 3, "Round-trip"). -/
def Obligations.DecMsgInvertsEncMsg : Prop :=
  ∀ (len : Len) (nonce : Nonce) (s : State), s.eng.phase ≠ .uninitialized →
    ∃ t, exec (.encMsg len nonce) s = .next t ∧ t.eng.status = .ok ∧
      ∀ u : State, u.eng.phase ≠ .uninitialized → u.eng.ks = s.eng.ks → u.eng.padFull = s.eng.padFull →
        u.eng.padPartial = s.eng.padPartial → (∀ a < len.toNat + 4, u.buf.read a = t.buf.read a) →
        ∃ v, exec (.decMsg len nonce) u = .next v ∧ v.eng.status = .ok ∧
          v.result = .plain (s.buf.readBytes 0 len.toNat) ∧
          v.buf.readBytes 0 len.toNat = s.buf.readBytes 0 len.toNat ∧
          v.eng = { t.eng with status := .ok }

/-- Tamper detection of the tag, for every cipher: if any of the four tag bytes is altered, decryption by a session
with the same key ends with `ERR_AUTH`, no plaintext and no tag (44_whole_message.md, section 3, "Tamper
detection"). -/
def Obligations.AlteredTagIsDetected : Prop :=
  ∀ (len : Len) (nonce : Nonce) (s : State), s.eng.phase ≠ .uninitialized →
    ∃ t, exec (.encMsg len nonce) s = .next t ∧ t.eng.status = .ok ∧
      ∀ u : State, u.eng.phase ≠ .uninitialized → u.eng.ks = s.eng.ks → u.eng.padFull = s.eng.padFull →
        u.eng.padPartial = s.eng.padPartial → (∀ a < len.toNat, u.buf.read a = t.buf.read a) →
        (∃ i < 4, u.buf.read (len.toNat + i) ≠ t.buf.read (len.toNat + i)) →
        ∃ v, exec (.decMsg len nonce) u = .next v ∧ v.eng.status = .errAuth ∧ v.eng.tag = 0 ∧
          v.result = .authenticationError ∧ v.eng.phase = .finalized

/-- The frame of the whole-message commands, whatever their status: the key schedule, the padding pair and the
waiting inputs stay; `ENC_MSG` changes no byte of the buffer from `LEN + 4` on, and `DEC_MSG` none from `LEN` on
(20_memory.md, section 3; 10_state.md, section 8). -/
def Obligations.WholeMessageCommandsKeepTheirFrame : Prop :=
  ∀ (len : Len) (nonce : Nonce) (s : State),
    (∃ t, exec (.encMsg len nonce) s = .next t ∧ t.eng.ks = s.eng.ks ∧ t.eng.padFull = s.eng.padFull ∧
      t.eng.padPartial = s.eng.padPartial ∧ t.pending = s.pending ∧
      ∀ a, len.toNat + 4 ≤ a → t.buf.read a = s.buf.read a) ∧
    (∃ t, exec (.decMsg len nonce) s = .next t ∧ t.eng.ks = s.eng.ks ∧ t.eng.padFull = s.eng.padFull ∧
      t.eng.padPartial = s.eng.padPartial ∧ t.pending = s.pending ∧
      ∀ a, len.toNat ≤ a → t.buf.read a = s.buf.read a)

/-! ## The interfaces -/

/-- The accesses to the operand buffer that each session command makes, in order, where it is accepted: none, or the
reads and writes of 20_memory.md, section 3, with a chunk of no bytes accessing nothing. `trace` is the model's own
port (log 10). -/
def Obligations.CommandsAccessTheBufferInOrder : Prop :=
  ∀ (len : Len) (nonce : Nonce) (key : Key) (s t : State),
    (exec (.initKey key) s = .next t ∨ exec (.initMsg nonce) s = .next t ∨ exec .finalTag s = .next t ∨
      exec .wipe s = .next t → bufferAccesses t.trace = []) ∧
    (exec (.auth len) s = .next t → t.eng.status = .ok →
      bufferAccesses t.trace = if len.toNat = 0 then [] else [.memRead 0 len.toNat]) ∧
    (exec (.crypt len) s = .next t → t.eng.status = .ok →
      bufferAccesses t.trace = if len.toNat = 0 then [] else [.memRead 0 len.toNat, .memWrite 0 len.toNat]) ∧
    (exec (.encMsg len nonce) s = .next t → t.eng.status = .ok →
      bufferAccesses t.trace = if len.toNat = 0 then [.memWrite 0 4]
        else [.memRead 0 len.toNat, .memWrite 0 len.toNat, .memRead 0 len.toNat, .memWrite len.toNat 4]) ∧
    (exec (.decMsg len nonce) s = .next t → t.eng.status ≠ .errUsage →
      bufferAccesses t.trace = if len.toNat = 0 then [.memRead 0 4]
        else [.memRead len.toNat 4, .memRead 0 len.toNat, .memRead 0 len.toNat, .memWrite 0 len.toNat])

/-- The number of encryptions each session command makes from a state that meets the invariant (20_memory.md,
section 5, and 44_whole_message.md, section 3). `trace` is the model's own port (log 10). -/
def Obligations.CommandsMakeTheStatedCipherCalls : Prop :=
  ∀ (len : Len) (nonce : Nonce) (key : Key) (s : State), s.Inv →
    (∀ t, exec (.initKey key) s = .next t → (encryptions t.trace).length = 1) ∧
    (∀ t, exec (.initMsg nonce) s = .next t → t.eng.status = .ok → (encryptions t.trace).length = 2) ∧
    (∀ t, exec (.auth len) s = .next t → t.eng.status = .ok → (encryptions t.trace).length =
      (s.eng.mac.cnt + len.toNat + 15) / 16 - (s.eng.mac.cnt + 15) / 16) ∧
    (∀ t, exec (.crypt len) s = .next t → t.eng.status = .ok → (encryptions t.trace).length =
      (s.eng.ctr.ccnt + len.toNat + 15) / 16 - (s.eng.ctr.ccnt + 15) / 16) ∧
    (∀ t, exec .finalTag s = .next t → (encryptions t.trace).length =
      if t.eng.status = .ok ∨ t.eng.status = .warnAuthOnly then 1 else 0) ∧
    (∀ t, exec (.encMsg len nonce) s = .next t → t.eng.status = .ok →
      (encryptions t.trace).length = 2 + 2 * ((len.toNat + 15) / 16) + 1) ∧
    (∀ t, exec (.decMsg len nonce) s = .next t → t.eng.status ≠ .errUsage →
      (encryptions t.trace).length = 2 + 2 * ((len.toNat + 15) / 16) + 1)

/-- The operand buffer and its length. The lengths are those of 30_encoding.md, section 2 (R97); that a command accesses
no byte at or past its length, and returns its buffer at that length, follows from the accesses that 20_memory.md, section
3, derives (R70). The rest is the model's choice or inference (log 6): the type `Buffer`, by which a command with a buffer
of another length cannot be stated and a buffer of `n` bytes is exactly an array of `n` bytes, length 0 for no buffer
(DESIGN CHOICE), and length 0 for an illegal descriptor (DEDUCED). -/
def Obligations.CommandBuffersHaveTheirLength : Prop :=
  (∀ (len : Len) (nonce : Nonce) (key : Key),
    bufferLength (.auth len) = len.toNat ∧ bufferLength (.crypt len) = len.toNat ∧
    bufferLength (.encMsg len nonce) = len.toNat + 4 ∧ bufferLength (.decMsg len nonce) = len.toNat + 4 ∧
    bufferLength (.initKey key) = 0 ∧ bufferLength (.initMsg nonce) = 0 ∧ bufferLength .finalTag = 0 ∧
    bufferLength .wipe = 0) ∧
  (∀ (d : List Byte) (i : Instr), decode d = .command i → operandLength d = bufferLength i) ∧
  (∀ (d : List Byte) (why : IllegalReason), decode d = .illegal why → operandLength d = 0) ∧
  (∀ (n : Nat) (v : List Byte), v.length = n → ∃! b : Buffer n, b.cells.readBytes 0 n = v) ∧
  (∀ (n : Nat) (b : Buffer n), ∀ c ∈ b.cells, c.1 < n) ∧
  (∀ (i : Instr) (s t : State), i.hostIssuable = true → exec i s = .next t →
    (∀ off n, (.memRead off n ∈ t.trace ∨ .memWrite off n ∈ t.trace) → off + n ≤ bufferLength i) ∧
    ((∀ c ∈ s.buf, c.1 < bufferLength i) → ∀ c ∈ t.buf, c.1 < bufferLength i))
end

