-- ==== Sys2Proof/Laws/Memory.lean ====
section
/-! SUPPORT. The laws of the operand buffer: read after write, and the canonical form. -/

namespace Sys2Proof.Machine

theorem Memory.read_erase (m : Memory) (a b : Nat) :
    (Memory.erase m a).read b = if b = a then Memory.unlisted else m.read b := by
  induction m with
  | nil => simp [Memory.erase, Memory.read]
  | cons c m ih =>
    rw [Memory.erase] at ih ⊢
    rw [List.filter_cons]
    by_cases h : c.1 = a
    · simp only [h, bne_self_eq_false, Bool.false_eq_true, if_false, ih, Memory.read]
      by_cases hb : b = a
      · simp [hb]
      · simp [hb, Ne.symm hb]
    · have h' : (c.1 != a) = true := by simpa using h
      rw [if_pos h', Memory.read, ih]
      by_cases hb : b = a
      · subst hb; simp [h]
      · simp [hb, Memory.read]

theorem Memory.read_insert (m : Memory) (a b : Nat) (v : Byte) (h : ∀ c ∈ m, c.1 ≠ a) :
    (Memory.insert m a v).read b = if b = a then v else m.read b := by
  induction m with
  | nil =>
    by_cases hb : b = a
    · simp [Memory.insert, Memory.read, hb]
    · simp [Memory.insert, Memory.read, hb, Ne.symm hb]
  | cons c m ih =>
    have hc := h c (by simp)
    have ih := ih (fun d hd => h d (by simp [hd]))
    rw [Memory.insert]
    split
    · simp only [Memory.read]
      by_cases hb : b = a
      · simp [hb]
      · simp [hb, Ne.symm hb]
    · simp only [Memory.read, ih]
      by_cases hb : b = a
      · subst hb; simp [hc]
      · simp [hb]

theorem Memory.erase_ne (m : Memory) (a : Nat) : ∀ c ∈ Memory.erase m a, c.1 ≠ a := by
  intro c hc; simp [Memory.erase] at hc; exact hc.2

/-- A read returns the last byte written there, and no other offset changes (R61). -/
theorem Memory.read_write (m : Memory) (a b : Nat) (v : Byte) :
    (m.write a v).read b = if b = a then v else m.read b := by
  rw [Memory.write]
  split
  · rename_i h; rw [Memory.read_erase, h]
  · rw [Memory.read_insert _ _ _ _ (Memory.erase_ne m a), Memory.read_erase]
    by_cases hb : b = a <;> simp [hb]

/-- Reading after `MemWrite(off, n, v)`: the written bytes in their range, the old ones elsewhere (R13). -/
theorem Memory.read_writeBytes (m : Memory) (off : Nat) (v : List Byte) (b : Nat) :
    (m.writeBytes off v).read b =
      if h : off ≤ b ∧ b < off + v.length then v[b - off]'(by omega) else m.read b := by
  induction v generalizing m off with
  | nil => rw [Memory.writeBytes, dif_neg]; simp
  | cons x v ih =>
    rw [Memory.writeBytes, ih, Memory.read_write]
    by_cases hb : b = off
    · subst hb; simp
    · simp only [hb, if_false, List.length_cons]
      by_cases h : off + 1 ≤ b ∧ b < off + 1 + v.length
      · have h2 : off ≤ b ∧ b < off + (v.length + 1) := by omega
        rw [dif_pos h, dif_pos h2]
        have e : b - off = (b - (off + 1)) + 1 := by omega
        simp only [e, List.getElem_cons_succ]
      · have h2 : ¬ (off ≤ b ∧ b < off + (v.length + 1)) := by omega
        rw [dif_neg h, dif_neg h2]

@[simp] theorem Memory.readBytes_length (m : Memory) (off n : Nat) : (m.readBytes off n).length = n := by
  simp [Memory.readBytes]

theorem Memory.readBytes_getElem (m : Memory) (off n i : Nat) (h : i < (m.readBytes off n).length) :
    (m.readBytes off n)[i] = m.read (off + i) := by
  simp [Memory.readBytes]

/-- Two ranges read alike where every byte of them does. -/
theorem Memory.readBytes_congr {m m' : Memory} {off n : Nat}
    (h : ∀ a, off ≤ a → a < off + n → m.read a = m'.read a) : m.readBytes off n = m'.readBytes off n := by
  apply List.map_congr_left
  intro i hi; simp at hi; exact h _ (by omega) (by omega)

/-- Reading back what was written (R13). -/
theorem Memory.readBytes_writeBytes (m : Memory) (off : Nat) (v : List Byte) :
    (m.writeBytes off v).readBytes off v.length = v := by
  apply List.ext_getElem
  · simp
  · intro i h1 h2
    rw [Memory.readBytes_getElem, Memory.read_writeBytes, dif_pos (by omega)]
    simp

/-- A range apart from the written one reads as before (R13). -/
theorem Memory.readBytes_writeBytes_apart (m : Memory) (off off' n : Nat) (v : List Byte)
    (h : off' + n ≤ off ∨ off + v.length ≤ off') :
    (m.writeBytes off v).readBytes off' n = m.readBytes off' n := by
  apply Memory.readBytes_congr
  intro a h1 h2
  rw [Memory.read_writeBytes, dif_neg (by omega)]

/-- The canonical form as a statement about pairs and cells. -/
theorem Memory.wf_iff (m : Memory) :
    m.wf = true ↔ m.Pairwise (fun c d => c.1 < d.1) ∧ ∀ c ∈ m, c.2 ≠ Memory.unlisted := by
  induction m with
  | nil => simp [Memory.wf]
  | cons c m ih =>
    cases m with
    | nil => simp [Memory.wf]
    | cons d m =>
      simp only [Memory.wf, Bool.and_eq_true, bne_iff_ne, decide_eq_true_eq, ih]
      constructor
      · rintro ⟨⟨h1, h2⟩, h3, h4⟩
        refine ⟨List.pairwise_cons.2 ⟨?_, h3⟩, ?_⟩
        · intro x hx
          rcases List.mem_cons.1 hx with rfl | hx
          · exact h2
          · exact lt_trans h2 ((List.pairwise_cons.1 h3).1 x hx)
        · intro x hx
          rcases List.mem_cons.1 hx with rfl | hx
          · exact h1
          · exact h4 x hx
      · rintro ⟨h1, h2⟩
        obtain ⟨h3, h4⟩ := List.pairwise_cons.1 h1
        exact ⟨⟨h2 c (by simp), h3 d (by simp)⟩, h4, fun x hx => h2 x (by simp [hx])⟩

theorem Memory.mem_insert {m : Memory} {a : Nat} {v : Byte} {c : Host.Cell} (h : c ∈ Memory.insert m a v) :
    c = (a, v) ∨ c ∈ m := by
  induction m with
  | nil => simpa [Memory.insert] using h
  | cons d m ih =>
    rw [Memory.insert] at h
    split at h
    · simpa using h
    · rcases List.mem_cons.1 h with rfl | h
      · simp
      · rcases ih h with h | h <;> simp [h]

theorem Memory.pairwise_insert {m : Memory} {a : Nat} {v : Byte} (h : m.Pairwise (fun c d => c.1 < d.1))
    (ha : ∀ c ∈ m, c.1 ≠ a) : (Memory.insert m a v).Pairwise (fun c d => c.1 < d.1) := by
  induction m with
  | nil => simp [Memory.insert]
  | cons c m ih =>
    obtain ⟨h1, h2⟩ := List.pairwise_cons.1 h
    rw [Memory.insert]
    split
    · rename_i hlt
      refine List.pairwise_cons.2 ⟨?_, h⟩
      intro x hx
      rcases List.mem_cons.1 hx with rfl | hx
      · exact hlt
      · exact lt_trans hlt (h1 x hx)
    · rename_i hlt
      have hc := ha c (by simp)
      refine List.pairwise_cons.2 ⟨?_, ih h2 (fun x hx => ha x (by simp [hx]))⟩
      intro x hx
      rcases Memory.mem_insert hx with rfl | hx
      · simp only; omega
      · exact h1 x hx

/-- A write keeps the canonical form. -/
theorem Memory.wf_write {m : Memory} (h : m.wf = true) (a : Nat) (v : Byte) : (m.write a v).wf = true := by
  rw [Memory.wf_iff] at h ⊢
  have hp : (Memory.erase m a).Pairwise (fun c d => c.1 < d.1) := h.1.filter _
  have hn : ∀ c ∈ Memory.erase m a, c.2 ≠ Memory.unlisted := by
    intro c hc; simp only [Memory.erase, List.mem_filter] at hc; exact h.2 c hc.1
  rw [Memory.write]
  split
  · exact ⟨hp, hn⟩
  · rename_i hv
    refine ⟨Memory.pairwise_insert hp (Memory.erase_ne m a), ?_⟩
    intro c hc
    rcases Memory.mem_insert hc with rfl | hc
    · exact hv
    · exact hn c hc

/-- `MemWrite` keeps the canonical form. -/
theorem Memory.wf_writeBytes {m : Memory} (h : m.wf = true) (off : Nat) (v : List Byte) :
    (m.writeBytes off v).wf = true := by
  induction v generalizing m off with
  | nil => exact h
  | cons x v ih => exact ih (Memory.wf_write h off x) (off + 1)

theorem Memory.read_of_lt {m : Memory} {a : Nat} (h : ∀ c ∈ m, a < c.1) : m.read a = Memory.unlisted := by
  induction m with
  | nil => rfl
  | cons c m ih =>
    have := h c (by simp)
    rw [Memory.read, if_neg (by omega)]
    exact ih (fun d hd => h d (by simp [hd]))

/-- In canonical form, buffers that read alike are equal. -/
theorem Memory.ext_of_wf {m m' : Memory} (h : m.wf = true) (h' : m'.wf = true) (hr : ∀ a, m.read a = m'.read a) :
    m = m' := by
  rw [Memory.wf_iff] at h h'
  induction m generalizing m' with
  | nil =>
    cases m' with
    | nil => rfl
    | cons d m' =>
      have := hr d.1
      simp only [Memory.read, if_true] at this
      exact absurd this.symm (h'.2 d (by simp))
  | cons c m ih =>
    obtain ⟨h1, h2⟩ := List.pairwise_cons.1 h.1
    cases m' with
    | nil =>
      have := hr c.1
      simp only [Memory.read, if_true] at this
      exact absurd this (h.2 c (by simp))
    | cons d m' =>
      obtain ⟨h3, h4⟩ := List.pairwise_cons.1 h'.1
      have hcd : c.1 = d.1 := by
        by_contra hne
        rcases Nat.lt_or_gt_of_ne hne with hlt | hlt
        · have := hr c.1
          rw [Memory.read_of_lt (m := d :: m') (by
            intro x hx; rcases List.mem_cons.1 hx with rfl | hx
            · exact hlt
            · exact lt_trans hlt (h3 x hx))] at this
          simp only [Memory.read, if_true] at this
          exact h.2 c (by simp) this
        · have := hr d.1
          rw [Memory.read_of_lt (m := c :: m) (by
            intro x hx; rcases List.mem_cons.1 hx with rfl | hx
            · exact hlt
            · exact lt_trans hlt (h1 x hx))] at this
          simp only [Memory.read, if_true] at this
          exact h'.2 d (by simp) this.symm
      have hv : c.2 = d.2 := by
        have := hr c.1
        simpa [Memory.read, hcd] using this
      have : c = d := Prod.ext hcd hv
      subst this
      congr 1
      refine ih (m' := m') ⟨h2, fun x hx => h.2 x (by simp [hx])⟩ ⟨h4, fun x hx => h'.2 x (by simp [hx])⟩ ?_
      intro a
      by_cases ha : c.1 = a
      · subst ha
        rw [Memory.read_of_lt h1, Memory.read_of_lt h3]
      · have := hr a
        simpa [Memory.read, ha] using this

/-- The buffer right after reset is in canonical form. -/
theorem State.reset_buf_wf : State.reset.buf.wf = true := rfl

end Sys2Proof.Machine
end

