-- ==== Sys2Proof/Laws/State.lean ====
section
/-! SUPPORT. What each update of the state leaves in each field. -/

namespace Sys2Proof.Machine

variable (s : State) (code : Status) (r : Result) (tr : List InterfaceEvent)

@[simp] theorem State.done_eng : (s.done code r tr).eng = { s.eng with status := code } := rfl
@[simp] theorem State.done_buf : (s.done code r tr).buf = s.buf := rfl
@[simp] theorem State.done_pending : (s.done code r tr).pending = s.pending := rfl
@[simp] theorem State.done_result : (s.done code r tr).result = r := rfl
@[simp] theorem State.done_trace : (s.done code r tr).trace = tr := rfl

@[simp] theorem State.fail_eng : (s.fail code).eng = { s.eng with status := code } := rfl
@[simp] theorem State.fail_buf : (s.fail code).buf = s.buf := rfl
@[simp] theorem State.fail_pending : (s.fail code).pending = s.pending := rfl
@[simp] theorem State.fail_result : (s.fail code).result = .none := rfl
@[simp] theorem State.fail_trace : (s.fail code).trace = [] := rfl

@[simp] theorem State.returns_eng : (s.returns r tr).eng = s.eng := rfl
@[simp] theorem State.returns_buf : (s.returns r tr).buf = s.buf := rfl
@[simp] theorem State.returns_pending : (s.returns r tr).pending = s.pending := rfl
@[simp] theorem State.returns_result : (s.returns r tr).result = r := rfl
@[simp] theorem State.returns_trace : (s.returns r tr).trace = tr := rfl

variable (off : Nat) (v : List Byte)

@[simp] theorem State.memWrite_eng : (s.memWrite off v).eng = s.eng := rfl
@[simp] theorem State.memWrite_buf : (s.memWrite off v).buf = s.buf.writeBytes off v := rfl
@[simp] theorem State.memWrite_pending : (s.memWrite off v).pending = s.pending := rfl
@[simp] theorem State.memWrite_result : (s.memWrite off v).result = s.result := rfl
@[simp] theorem State.memWrite_trace : (s.memWrite off v).trace = s.trace := rfl

variable {n : Nat} (rest : List HostInput) (brought : Buffer n) (input : HostInput)

@[simp] theorem consumeInput_eng : (consumeInput rest s).eng = s.eng := rfl
@[simp] theorem consumeInput_buf : (consumeInput rest s).buf = s.buf := rfl
@[simp] theorem consumeInput_pending : (consumeInput rest s).pending = rest := rfl
@[simp] theorem consumeInput_result : (consumeInput rest s).result = s.result := rfl
@[simp] theorem consumeInput_trace : (consumeInput rest s).trace = s.trace := rfl

@[simp] theorem handOver_eng : (handOver brought s).eng = s.eng := rfl
@[simp] theorem handOver_buf : (handOver brought s).buf = if n = 0 then s.buf else brought.cells := rfl
@[simp] theorem handOver_pending : (handOver brought s).pending = s.pending := rfl
@[simp] theorem handOver_result : (handOver brought s).result = s.result := rfl
@[simp] theorem handOver_trace : (handOver brought s).trace = s.trace := rfl

@[simp] theorem takeInput_eng : (takeInput rest brought s).eng = s.eng := rfl
@[simp] theorem takeInput_buf : (takeInput rest brought s).buf = if n = 0 then s.buf else brought.cells := rfl
@[simp] theorem takeInput_pending : (takeInput rest brought s).pending = rest := rfl
@[simp] theorem takeInput_result : (takeInput rest brought s).result = s.result := rfl
@[simp] theorem takeInput_trace : (takeInput rest brought s).trace = s.trace := rfl

@[simp] theorem presentNext_eng : (presentNext input s).eng = s.eng := rfl
@[simp] theorem presentNext_buf : (presentNext input s).buf = s.buf := rfl
@[simp] theorem presentNext_pending : (presentNext input s).pending = input :: s.pending := rfl

@[simp] theorem platformReset_eng : (platformReset s).eng = Engine.reset := rfl
@[simp] theorem platformReset_buf : (platformReset s).buf = s.buf := rfl
@[simp] theorem platformReset_pending : (platformReset s).pending = s.pending := rfl

variable (c : Cipher) (e : Engine)

/-- `E` depends on the engine through `KS` alone (R12). -/
theorem Engine.encrypt_congr {e f : Engine} (h : e.ks = f.ks) : e.encrypt c = f.encrypt c := by
  funext b; simp [Engine.encrypt, h]

/-- What `E` of an engine is: a function of its `KS`. -/
theorem Engine.encrypt_eq : e.encrypt c = Cipher.encrypt c e.ks := rfl

end Sys2Proof.Machine
end

