-- ==== Sys2Proof/Laws/Buffer.lean ====
section
/-! SUPPORT. The laws of operand buffers of a given length (R61, R97). -/

namespace Sys2Proof.Machine

theorem Memory.within_iff (m : Memory) (n : Nat) : m.within n = true ↔ ∀ c ∈ m, c.1 < n := by
  simp [Memory.within]

/-- A byte written below `n` keeps the buffer's length (R13). -/
theorem Memory.within_write {m : Memory} {n a : Nat} (h : m.within n = true) (ha : a < n) (v : Byte) :
    (m.write a v).within n = true := by
  rw [Memory.within_iff] at h ⊢
  have he : ∀ c ∈ Memory.erase m a, c.1 < n := fun c hc => h c (List.mem_filter.1 hc).1
  intro c hc
  rw [Memory.write] at hc
  split at hc
  · exact he c hc
  · rcases Memory.mem_insert hc with rfl | hc
    · exact ha
    · exact he c hc

/-- Bytes written below `n` keep the buffer's length (R13). -/
theorem Memory.within_writeBytes {m : Memory} {n off : Nat} {v : List Byte} (h : m.within n = true)
    (hv : off + v.length ≤ n) : (m.writeBytes off v).within n = true := by
  induction v generalizing m off with
  | nil => exact h
  | cons b v ih =>
    rw [List.length_cons] at hv
    exact ih (Memory.within_write h (by omega) b) (by omega)

theorem Memory.read_of_notMem {m : Memory} {a : Nat} (h : ∀ c ∈ m, c.1 ≠ a) : m.read a = Memory.unlisted := by
  induction m with
  | nil => rfl
  | cons c m ih =>
    rw [Memory.read, if_neg (h c (by simp)), ih fun d hd => h d (by simp [hd])]

variable {n : Nat}

theorem Buffer.wf (b : Buffer n) : b.cells.wf = true := (Bool.and_eq_true _ _ ▸ b.ok).1

theorem Buffer.within (b : Buffer n) : b.cells.within n = true := (Bool.and_eq_true _ _ ▸ b.ok).2

/-- A buffer has no byte at or past its length (R97). -/
theorem Buffer.read_of_ge (b : Buffer n) {a : Nat} (h : n ≤ a) : b.cells.read a = Memory.unlisted := by
  apply Memory.read_of_notMem
  intro c hc
  have := (Memory.within_iff _ _).1 b.within c hc
  omega

/-- A command without a buffer has the empty one alone. -/
theorem Buffer.cells_of_zero (b : Buffer 0) : b.cells = [] :=
  List.eq_nil_iff_forall_not_mem.2 fun c hc => absurd ((Memory.within_iff _ _).1 b.within c hc) (by omega)

/-- Buffers of one length with equal bytes are equal: a buffer is its array of bytes (R61). -/
theorem Buffer.eq_of_read {b b' : Buffer n} (h : ∀ a < n, b.cells.read a = b'.cells.read a) : b = b' := by
  have hc : b.cells = b'.cells := by
    apply Memory.ext_of_wf b.wf b'.wf
    intro a
    by_cases ha : a < n
    · exact h a ha
    · rw [b.read_of_ge (by omega), b'.read_of_ge (by omega)]
  cases b; cases b'; cases hc; rfl

/-- The window on bytes in canonical form holds their first `n`. -/
theorem Buffer.window_cells {m : Memory} (h : m.wf = true) :
    (Buffer.window m n).cells = m.filter (fun c => decide (c.1 < n)) := by
  have hf : (Memory.wf (m.filter fun c => decide (c.1 < n)) &&
      Memory.within (m.filter fun c => decide (c.1 < n)) n) = true := by
    rw [Bool.and_eq_true, Memory.wf_iff, Memory.within_iff]
    rw [Memory.wf_iff] at h
    exact ⟨⟨h.1.filter _, fun c hc => h.2 c (List.mem_filter.1 hc).1⟩,
      fun c hc => by simpa using (List.mem_filter.1 hc).2⟩
  simp only [Buffer.window, dif_pos hf]

/-- A served command that has a buffer has one of its own length. -/
theorem takeInput_within (rest : List HostInput) (brought : Buffer n) (s : State) (h : n ≠ 0) :
    (takeInput rest brought s).buf.within n = true := by
  rw [takeInput_buf, if_neg h]; exact brought.within

/-- Taking an input keeps the canonical form. -/
theorem takeInput_wf (rest : List HostInput) (brought : Buffer n) {s : State} (h : s.buf.wf = true) :
    (takeInput rest brought s).buf.wf = true := by
  rw [takeInput_buf]; split
  · exact h
  · exact brought.wf

end Sys2Proof.Machine
end

