-- ==== Sys2Proof/Laws/Bytes.lean ====
section
/-! SUPPORT. The laws of byte order: reading a byte, XORing one, and the two readings of a byte array. -/

namespace Sys2Proof

@[simp] theorem toBytes_length {w : Nat} (x : BitVec w) : (toBytes x).length = w / 8 := by
  simp [toBytes]

theorem toBytes_getElem {w : Nat} (x : BitVec w) (i : Nat) (h : i < (toBytes x).length) :
    (toBytes x)[i] = byteOf x i := by
  simp [toBytes]

/-- XOR acts byte by byte (R10). -/
@[simp] theorem byteOf_xor {w : Nat} (x y : BitVec w) (i : Nat) :
    byteOf (x ^^^ y) i = byteOf x i ^^^ byteOf y i := by
  ext j hj; simp [byteOf]

theorem byteOf_zero {w : Nat} (i : Nat) : byteOf (0 : BitVec w) i = 0 := by
  simp [byteOf]

/-- A byte XORed into a block meets exactly that byte (R11). -/
theorem byteOf_xorByteAt (b : Block) (i j : Nat) (v : Byte) (hi : i < 16) (hj : j < 16) :
    byteOf (xorByteAt b i v) j = if i = j then byteOf b j ^^^ v else byteOf b j := by
  rw [xorByteAt, byteOf_xor]
  split
  · subst i; congr 1; ext k hk; simp [byteOf]
    have h1 : 128 - 8 * (j + 1) + k < 128 := by omega
    have h2 : ¬ 128 - 8 * (j + 1) + k < 8 * (15 - j) := by omega
    have h3 : 128 - 8 * (j + 1) + k - 8 * (15 - j) = k := by omega
    simp [h1, h2, h3, hk]
    intro _; omega
  · rename_i hne
    have : byteOf (BitVec.setWidth 128 v <<< (8 * (15 - i))) j = 0 := by
      ext k hk; simp [byteOf]
      intro h1 h2
      have : 8 ≤ 128 - 8 * (j + 1) + k - 8 * (15 - i) := by omega
      simp [BitVec.getLsbD_of_ge _ _ this]
    simp [this]

theorem byteOf_toNat {w : Nat} (x : BitVec w) (i : Nat) :
    (byteOf x i).toNat = x.toNat / 2 ^ (w - 8 * (i + 1)) % 256 := by
  simp [byteOf, Nat.shiftRight_eq_div_pow]

@[simp] theorem bigEndian_nil : bigEndian [] = 0 := rfl

theorem bigEndian_concat (d : List Byte) (b : Byte) : bigEndian (d ++ [b]) = 256 * bigEndian d + b.toNat := by
  simp [bigEndian]

theorem bigEndian_cons (b : Byte) (d : List Byte) :
    bigEndian (b :: d) = b.toNat * 256 ^ d.length + bigEndian d := by
  induction d using List.reverseRecOn with
  | nil => simp [bigEndian]
  | append_singleton d x ih =>
    rw [← List.cons_append, bigEndian_concat, ih, bigEndian_concat]
    simp [pow_succ]; ring

theorem bigEndian_lt (d : List Byte) : bigEndian d < 256 ^ d.length := by
  induction d with
  | nil => simp
  | cons b d ih =>
    rw [bigEndian_cons, List.length_cons, pow_succ]
    have := b.isLt
    nlinarith

/-- The big-endian value of an array's bytes is the array's value (R9). -/
theorem bigEndian_toBytes {w n : Nat} (hw : w = 8 * n) (x : BitVec w) : bigEndian (toBytes x) = x.toNat := by
  have key : ∀ k, k ≤ n → bigEndian ((List.range k).map (byteOf x)) = x.toNat / 256 ^ (n - k) := by
    intro k
    induction k with
    | zero =>
      intro _
      have := x.isLt
      have h2 : 2 ^ w = 256 ^ n := by rw [hw, pow_mul]; norm_num
      simp only [List.range_zero, List.map_nil, bigEndian_nil, Nat.sub_zero]
      rw [Nat.div_eq_of_lt (by omega)]
    | succ k ih =>
      intro hk
      rw [List.range_succ, List.map_append, List.map_singleton, bigEndian_concat, ih (by omega), byteOf_toNat]
      have e1 : 2 ^ (w - 8 * (k + 1)) = 256 ^ (n - (k + 1)) := by
        rw [hw, ← Nat.mul_sub, pow_mul]; norm_num
      have e2 : (256 : Nat) ^ (n - k) = 256 ^ (n - (k + 1)) * 256 := by
        rw [← pow_succ]; congr 1; omega
      rw [e1, e2, ← Nat.div_div_eq_div_mul]; omega
  have hn : w / 8 = n := by omega
  rw [toBytes, hn, key n (le_refl _)]; simp

/-- Reading an array's bytes back gives the array. -/
theorem ofBytes_toBytes {w n : Nat} (hw : w = 8 * n) (x : BitVec w) : ofBytes w (toBytes x) = x := by
  rw [ofBytes, bigEndian_toBytes hw]; simp

theorem bigEndian_byte (d : List Byte) (i : Nat) (h : i < d.length) :
    bigEndian d / 256 ^ (d.length - (i + 1)) % 256 = (d[i]).toNat := by
  induction d generalizing i with
  | nil => simp at h
  | cons b d ih =>
    have hlt := bigEndian_lt d
    rw [bigEndian_cons]
    cases i with
    | zero =>
      simp only [List.length_cons, Nat.add_sub_cancel, List.getElem_cons_zero, Nat.zero_add]
      rw [Nat.mul_comm, Nat.mul_add_div (by positivity), Nat.div_eq_of_lt hlt]
      have := b.isLt; omega
    | succ i =>
      simp only [List.length_cons] at h
      have hi : i < d.length := by omega
      simp only [List.length_cons, List.getElem_cons_succ]
      have e : d.length + 1 - (i + 1 + 1) = d.length - (i + 1) := by omega
      have e2 : b.toNat * 256 ^ d.length
          = 256 ^ (d.length - (i + 1)) * (256 * (b.toNat * 256 ^ i)) := by
        have : d.length = (d.length - (i + 1)) + (i + 1) := by omega
        conv_lhs => rw [this, pow_add, pow_succ]
        ring
      rw [e, e2, Nat.mul_add_div (by positivity), Nat.mul_add_mod, ih i hi]

/-- Byte `i` of the array made of a byte list is its element `i` (R9, R64). -/
theorem byteOf_ofBytes {w : Nat} (d : List Byte) (hw : w = 8 * d.length) (i : Nat) (h : i < d.length) :
    byteOf (ofBytes w d) i = d[i] := by
  apply BitVec.eq_of_toNat_eq
  have h2 : (2 : Nat) ^ w = 256 ^ d.length := by rw [hw, pow_mul]; norm_num
  rw [byteOf_toNat, ofBytes, BitVec.toNat_ofNat, h2, Nat.mod_eq_of_lt (bigEndian_lt d), ← bigEndian_byte d i h]
  have e1 : (2 : Nat) ^ (w - 8 * (i + 1)) = 256 ^ (d.length - (i + 1)) := by
    rw [hw, ← Nat.mul_sub, pow_mul]; norm_num
  rw [e1]

/-- The bytes of the array made of a byte list are that list. -/
theorem toBytes_ofBytes {w : Nat} (d : List Byte) (hw : w = 8 * d.length) : toBytes (ofBytes w d) = d := by
  apply List.ext_getElem
  · simp; omega
  · intro i h1 h2
    rw [toBytes_getElem, byteOf_ofBytes d hw i h2]

/-- Two arrays with equal bytes are equal. -/
theorem eq_of_byteOf {w n : Nat} (hw : w = 8 * n) (x y : BitVec w) (h : ∀ i < n, byteOf x i = byteOf y i) : x = y := by
  rw [← ofBytes_toBytes hw x, ← ofBytes_toBytes hw y]
  congr 1
  apply List.ext_getElem
  · simp
  · intro i h1 h2
    rw [toBytes_getElem, toBytes_getElem]
    apply h; simp at h1; omega

end Sys2Proof
end

