-- ==== Sys2Proof/Laws/Ctr.lean ====
section
/-! SUPPORT. The laws of the CTR engine: what one byte does, chunking, and the closed form from a seed. -/

namespace Sys2Proof.Machine

variable (E : Block → Block)

/-- What the refresh does (R159, R160). -/
theorem ctrRefresh_cases (r : CtrState) :
    ((r.ksPos.val = 16 ∨ r.ccnt = 0) ∧ ctrRefresh E r = ⟨inc r.ctr, E r.ctr, 0, r.ccnt⟩) ∨
    ((r.ksPos.val < 16 ∧ r.ccnt ≠ 0) ∧ ctrRefresh E r = r) := by
  rw [ctrRefresh]
  have := r.ksPos.isLt
  split
  · rename_i h; left; refine ⟨?_, rfl⟩
    simp [ctrStale] at h; omega
  · rename_i h; right; refine ⟨?_, rfl⟩
    simp [ctrStale] at h; omega

theorem ctrRefresh_pos_lt (r : CtrState) : (ctrRefresh E r).ksPos.val < 16 := by
  rcases ctrRefresh_cases E r with ⟨_, e⟩ | ⟨h, e⟩ <;> rw [e]
  · simp
  · exact h.1

theorem ctrNext_ksPos (r : CtrState) : (ctrNext E r).ksPos.val = (ctrRefresh E r).ksPos.val + 1 := by
  have h := ctrRefresh_pos_lt E r
  simp only [ctrNext]
  rw [Fin.val_add]; simp; omega

@[simp] theorem ctrNext_ccnt (r : CtrState) : (ctrNext E r).ccnt = r.ccnt + 1 := by
  rcases ctrRefresh_cases E r with ⟨_, e⟩ | ⟨_, e⟩ <;> simp [ctrNext, e]

@[simp] theorem ctrAdvance_zero (r : CtrState) : ctrAdvance E r 0 = r := rfl
@[simp] theorem ctrAdvance_succ (r : CtrState) (n : Nat) : ctrAdvance E r (n + 1) = ctrAdvance E (ctrNext E r) n := rfl

/-- Chunking equivalence of the registers (R163). -/
theorem ctrAdvance_add (r : CtrState) (m n : Nat) : ctrAdvance E r (m + n) = ctrAdvance E (ctrAdvance E r m) n := by
  induction m generalizing r with
  | zero => simp
  | succ m ih => rw [Nat.add_right_comm, ctrAdvance_succ, ctrAdvance_succ, ih]

@[simp] theorem ctrAdvance_ccnt (r : CtrState) (n : Nat) : (ctrAdvance E r n).ccnt = r.ccnt + n := by
  induction n generalizing r with
  | zero => rfl
  | succ n ih => rw [ctrAdvance_succ, ih, ctrNext_ccnt]; omega

@[simp] theorem ctrOutput_length (r : CtrState) (d : List Byte) : (ctrOutput E r d).length = d.length := by
  induction d generalizing r with
  | nil => rfl
  | cons b d ih => simp [ctrOutput, ih]

/-- Chunking equivalence of the output (R163). -/
theorem ctrOutput_append (r : CtrState) (a b : List Byte) :
    ctrOutput E r (a ++ b) = ctrOutput E r a ++ ctrOutput E (ctrAdvance E r a.length) b := by
  induction a generalizing r with
  | nil => rfl
  | cons x a ih => simp [ctrOutput, ih]

/-- Each byte meets the keystream byte of its position (R71, R159). -/
theorem ctrOutput_getElem (r : CtrState) (d : List Byte) (k : Nat) (h : k < (ctrOutput E r d).length) :
    (ctrOutput E r d)[k] = d[k]'(by simpa using h) ^^^ ctrKeyByte E (ctrAdvance E r k) := by
  induction d generalizing r k with
  | nil => simp at h
  | cons b d ih =>
    cases k with
    | zero => rfl
    | succ k => simp [ctrOutput, ih]

/-- The keystream applied twice from one start restores the data (R162). -/
theorem ctrOutput_selfInverse (r : CtrState) (d : List Byte) : ctrOutput E r (ctrOutput E r d) = d := by
  induction d generalizing r with
  | nil => rfl
  | cons b d ih => simp [ctrOutput, ih]

theorem ctrInputs_add (r : CtrState) (m n : Nat) :
    ctrInputs E r (m + n) = ctrInputs E r m ++ ctrInputs E (ctrAdvance E r m) n := by
  induction m generalizing r with
  | zero => simp [ctrInputs]
  | succ m ih => rw [Nat.add_right_comm, ctrInputs, ctrInputs, ih]; simp

/-- The CTR registers that belong to a seed and a byte count (R38, R161). -/
structure CtrBelongs (seed : Block) (r : CtrState) : Prop where
  ksPos : r.ksPos.val = if r.ccnt = 0 then 0 else (r.ccnt - 1) % 16 + 1
  counter : r.ctr = seed + BitVec.ofNat 128 (blocksFor r.ccnt)
  cache : r.ksCache = if r.ccnt = 0 then zeroBlock else E (seed + BitVec.ofNat 128 (blocksFor r.ccnt - 1))

theorem ctrSeed_belongs (seed : Block) : CtrBelongs E seed (ctrSeed seed) := by
  constructor <;> simp [ctrSeed, blocksFor]

theorem ctrNext_belongs {seed : Block} {r : CtrState} (h : CtrBelongs E seed r) : CtrBelongs E seed (ctrNext E r) := by
  obtain ⟨h1, h2, h3⟩ := h
  rcases ctrRefresh_cases E r with ⟨hs, e⟩ | ⟨hs, e⟩
  · have hb : blocksFor (r.ccnt + 1) = blocksFor r.ccnt + 1 := by
      unfold blocksFor; split at h1 <;> omega
    constructor
    · rw [ctrNext_ksPos, ctrNext_ccnt, e]; split at h1 <;> simp <;> omega
    · rw [ctrNext_ccnt, hb]; simp only [ctrNext, e, inc, h2]
      rw [BitVec.add_assoc]; congr 1; apply BitVec.eq_of_toNat_eq; simp
    · rw [ctrNext_ccnt, hb]; simp [ctrNext, e, h2]
  · have hb : blocksFor (r.ccnt + 1) = blocksFor r.ccnt := by
      unfold blocksFor; split at h1 <;> omega
    constructor
    · rw [ctrNext_ksPos, ctrNext_ccnt, e]; split at h1 <;> simp <;> omega
    · rw [ctrNext_ccnt, hb]; simp [ctrNext, e, h2]
    · rw [ctrNext_ccnt, hb]; simp [ctrNext, e, h3, hs.2]

theorem ctrAdvance_belongs {seed : Block} {r : CtrState} (h : CtrBelongs E seed r) (n : Nat) :
    CtrBelongs E seed (ctrAdvance E r n) := by
  induction n generalizing r with
  | zero => exact h
  | succ n ih => exact ih (ctrNext_belongs E h)

/-- The keystream byte that belongs to a seed and a byte count (R161). -/
theorem ctrKeyByte_belongs {seed : Block} {r : CtrState} (h : CtrBelongs E seed r) :
    ctrKeyByte E r = keystreamByte E seed r.ccnt := by
  have hn := ctrNext_belongs E h
  have hc := hn.cache
  have hp := hn.ksPos
  rw [ctrNext_ksPos, ctrNext_ccnt, if_neg (by omega)] at hp
  rw [ctrNext_ccnt, if_neg (by omega)] at hc
  have e : (ctrNext E r).ksCache = (ctrRefresh E r).ksCache := rfl
  have hq : blocksFor (r.ccnt + 1) - 1 = r.ccnt / 16 := by unfold blocksFor; omega
  rw [ctrKeyByte, keystreamByte, ← hq, ← hc, e]
  congr 1
  omega

/-- The relation of `KS_POS` and `CCNT` that every CTR state reached from a seed has (R38). -/
def CtrState.posMatchesCount (r : CtrState) : Prop :=
  r.ksPos.val = if r.ccnt = 0 then 0 else (r.ccnt - 1) % 16 + 1

theorem ctrNext_posMatchesCount {r : CtrState} (h : r.posMatchesCount) : (ctrNext E r).posMatchesCount := by
  unfold CtrState.posMatchesCount at h ⊢
  rw [ctrNext_ksPos, ctrNext_ccnt]
  rcases ctrRefresh_cases E r with ⟨hs, e⟩ | ⟨hs, e⟩ <;> rw [e] <;> split at h <;> simp <;> omega

/-- The number of encryptions of an apply (R81). -/
theorem ctrInputs_length {r : CtrState} (h : r.posMatchesCount) (n : Nat) :
    (ctrInputs E r n).length + blocksFor r.ccnt = blocksFor (r.ccnt + n) := by
  induction n generalizing r with
  | zero => simp [ctrInputs]
  | succ n ih =>
    have ih := ih (ctrNext_posMatchesCount E h)
    rw [ctrNext_ccnt] at ih
    have e : r.ccnt + (n + 1) = r.ccnt + 1 + n := by omega
    rw [e, ← ih, ctrInputs, List.length_append]
    unfold CtrState.posMatchesCount at h
    have : (if ctrStale r then [r.ctr] else []).length + blocksFor r.ccnt = blocksFor (r.ccnt + 1) := by
      unfold blocksFor
      split at h <;> split <;> rename_i hs <;> simp [ctrStale] at hs <;> simp <;> omega
    omega

end Sys2Proof.Machine
end

