-- ==== Sys2Proof/Laws/Mac.lean ====
section
/-! SUPPORT. The laws of the MAC accumulator: what one byte does, chunking, position and count. -/

namespace Sys2Proof.Machine

variable (E : Block → Block)

/-- After the chaining there is room for a byte (R138). -/
theorem macChain_pos_lt (m : Accumulator) : (macChain E m).pos.val < 16 := by
  rw [macChain]; split
  · simp
  · have := m.pos.isLt; omega

/-- The chaining encrypts a full block and nothing else (R139). -/
theorem macChain_cases (m : Accumulator) :
    (m.pos.val = 16 ∧ macChain E m = ⟨E m.acc, 0, m.cnt⟩) ∨ (m.pos.val < 16 ∧ macChain E m = m) := by
  rw [macChain]; split
  · exact .inl ⟨‹_›, rfl⟩
  · have := m.pos.isLt; exact .inr ⟨by omega, rfl⟩

theorem fillPos_succ {p : FillPos} (h : p.val < 16) : (p + 1).val = p.val + 1 := by
  rw [Fin.val_add]; simp; omega

theorem macByte_pos (m : Accumulator) (b : Byte) :
    (macByte E m b).pos.val = (if m.pos.val = 16 then 0 else m.pos.val) + 1 := by
  rw [macByte, fillPos_succ (macChain_pos_lt E m)]
  rcases macChain_cases E m with ⟨h, e⟩ | ⟨h, e⟩
  · simp [e, h]
  · rw [e, if_neg (by omega)]

@[simp] theorem macByte_cnt (m : Accumulator) (b : Byte) : (macByte E m b).cnt = m.cnt + 1 := by
  rcases macChain_cases E m with ⟨h, e⟩ | ⟨h, e⟩ <;> simp [macByte, e]

@[simp] theorem macAbsorb_nil (m : Accumulator) : macAbsorb E m [] = m := rfl

@[simp] theorem macAbsorb_cons (m : Accumulator) (b : Byte) (d : List Byte) :
    macAbsorb E m (b :: d) = macAbsorb E (macByte E m b) d := rfl

/-- Chunking equivalence (R140). -/
theorem macAbsorb_append (m : Accumulator) (a b : List Byte) :
    macAbsorb E m (a ++ b) = macAbsorb E (macAbsorb E m a) b := by
  simp [macAbsorb]

@[simp] theorem macAbsorb_cnt (m : Accumulator) (d : List Byte) : (macAbsorb E m d).cnt = m.cnt + d.length := by
  induction d generalizing m with
  | nil => rfl
  | cons b d ih => rw [macAbsorb_cons, ih, macByte_cnt, List.length_cons]; omega

theorem macStart_posMatchesCount (t : Byte) : (macStart t).posMatchesCount = true := by
  simp [macStart, Accumulator.posMatchesCount]

theorem macByte_posMatchesCount {m : Accumulator} (h : m.posMatchesCount = true) (b : Byte) :
    (macByte E m b).posMatchesCount = true := by
  have hp := macByte_pos E m b
  simp only [Accumulator.posMatchesCount, macByte_cnt, Nat.add_sub_cancel] at h ⊢
  rw [if_neg (by omega)]
  simp only [decide_eq_true_eq]
  split at h <;> simp only [decide_eq_true_eq] at h <;> split at hp <;> omega

/-- The relation of position and count is kept by every absorb (R145). -/
theorem macAbsorb_posMatchesCount {m : Accumulator} (h : m.posMatchesCount = true) (d : List Byte) :
    (macAbsorb E m d).posMatchesCount = true := by
  induction d generalizing m with
  | nil => exact h
  | cons b d ih => exact ih (macByte_posMatchesCount E h b)

theorem macAbsorbInputs_append (m : Accumulator) (a b : List Byte) :
    macAbsorbInputs E m (a ++ b) = macAbsorbInputs E m a ++ macAbsorbInputs E (macAbsorb E m a) b := by
  induction a generalizing m with
  | nil => rfl
  | cons x a ih => simp [macAbsorbInputs, ih]

/-- The number of encryptions of an absorb (R81). -/
theorem macAbsorbInputs_length {m : Accumulator} (h : m.posMatchesCount = true) (d : List Byte) :
    (macAbsorbInputs E m d).length + blocksFor m.cnt = blocksFor (m.cnt + d.length) := by
  induction d generalizing m with
  | nil => simp [macAbsorbInputs]
  | cons b d ih =>
    have ih := ih (macByte_posMatchesCount E h b)
    rw [macByte_cnt] at ih
    have e : m.cnt + (b :: d).length = m.cnt + 1 + d.length := by simp; omega
    rw [e, ← ih, macAbsorbInputs, List.length_append]
    simp only [Accumulator.posMatchesCount] at h
    have : (if m.pos.val = 16 then [m.acc] else []).length + blocksFor m.cnt = blocksFor (m.cnt + 1) := by
      unfold blocksFor
      split at h <;> simp at h <;> split <;> simp <;> omega
    omega

/-- The MAC of an engine depends on its key schedule and pads alone (R142). -/
theorem Engine.macFinish_congr (c : Cipher) {e f : Engine} (hk : e.ks = f.ks) (h1 : e.padFull = f.padFull)
    (h2 : e.padPartial = f.padPartial) (m : Accumulator) : e.macFinish c m = f.macFinish c m := by
  rw [Engine.macFinish, Engine.macFinish, Engine.encrypt_congr c hk, h1, h2]

/-- `N` depends on the key schedule, the pads and the nonce alone (R177). -/
theorem nonceMac_congr (c : Cipher) {e f : Engine} (hk : e.ks = f.ks) (h1 : e.padFull = f.padFull)
    (h2 : e.padPartial = f.padPartial) (x : Nonce) : nonceMac c e x = nonceMac c f x := by
  rw [nonceMac, nonceMac, nonceAccumulator, nonceAccumulator, Engine.encrypt_congr c hk,
    Engine.macFinish_congr c hk h1 h2]

end Sys2Proof.Machine
end

