-- ==== Sys2Proof/Laws/PerInstr.lean ====
section
/-! SUPPORT. What holds of every instruction as syntax: one lemma for each constructor. -/

namespace Sys2Proof.Laws.DescriptorShape

open Sys2Proof

/-- The shape of an instruction's descriptor (R93, R101, R103): a host-issuable instruction has one, which begins with
its opcode and has the length that the opcode decides; a unit operation has none, and its opcode decides no length. -/
def Statement (i : Instr) : Prop :=
  (encode i).map List.length = descriptorLength i.opcode ∧
  (encode i).isSome = i.hostIssuable ∧ ∀ d, encode i = some d → d.head? = some i.opcode

theorem initKey (key : Key) : Statement (.initKey key) :=
  ⟨by simp [encode, Instr.opcode, descriptorLength], rfl, by rintro d ⟨⟩; rfl⟩

theorem initMsg (nonce : Nonce) : Statement (.initMsg nonce) :=
  ⟨by simp [encode, Instr.opcode, descriptorLength], rfl, by rintro d ⟨⟩; rfl⟩

theorem auth (len : Len) : Statement (.auth len) :=
  ⟨by simp [encode, Instr.opcode, descriptorLength], rfl, by rintro d ⟨⟩; rfl⟩

theorem crypt (len : Len) : Statement (.crypt len) :=
  ⟨by simp [encode, Instr.opcode, descriptorLength], rfl, by rintro d ⟨⟩; rfl⟩

theorem finalTag : Statement .finalTag := ⟨rfl, rfl, by rintro d ⟨⟩; rfl⟩

theorem encMsg (len : Len) (nonce : Nonce) : Statement (.encMsg len nonce) :=
  ⟨by simp [encode, Instr.opcode, descriptorLength], rfl, by rintro d ⟨⟩; rfl⟩

theorem decMsg (len : Len) (nonce : Nonce) : Statement (.decMsg len nonce) :=
  ⟨by simp [encode, Instr.opcode, descriptorLength], rfl, by rintro d ⟨⟩; rfl⟩

theorem wipe : Statement .wipe := ⟨rfl, rfl, by rintro d ⟨⟩; rfl⟩

theorem gfDbl (b : Block) : Statement (.gfDbl b) := ⟨rfl, rfl, by rintro d ⟨⟩⟩

theorem subkey : Statement .subkey := ⟨rfl, rfl, by rintro d ⟨⟩⟩

theorem macStart (tweak : Byte) : Statement (.macStart tweak) := ⟨rfl, rfl, by rintro d ⟨⟩⟩

theorem macAbsorb (m : Accumulator) (d : List Byte) : Statement (.macAbsorb m d) := ⟨rfl, rfl, by rintro d ⟨⟩⟩

theorem macFinish (m : Accumulator) : Statement (.macFinish m) := ⟨rfl, rfl, by rintro d ⟨⟩⟩

theorem ctrSeed (b : Block) : Statement (.ctrSeed b) := ⟨rfl, rfl, by rintro d ⟨⟩⟩

theorem ctrApply (d : List Byte) : Statement (.ctrApply d) := ⟨rfl, rfl, by rintro d ⟨⟩⟩

theorem ctrInc (b : Block) : Statement (.ctrInc b) := ⟨rfl, rfl, by rintro d ⟨⟩⟩

end Sys2Proof.Laws.DescriptorShape
end

