-- ==== Sys2Proof/Laws/Session.lean ====
section
/-! SUPPORT. What each session command does, once, case by case: later proofs cite these instead of unfolding. -/

namespace Sys2Proof.Machine

variable (c : Cipher) (s : State)

theorem Phase.inMessage_iff (p : Phase) : p.inMessage = true ↔ p = .messageReady ∨ p = .streaming := by
  cases p <;> simp [Phase.inMessage]

theorem Phase.hasKey_iff (p : Phase) : p.hasKey = true ↔ p ≠ .uninitialized := by
  cases p <;> simp [Phase.hasKey]

theorem counterOverflows_iff (k n : Nat) : counterOverflows k n = true ↔ 2 ^ 32 ≤ k + n := by
  rw [counterOverflows]; exact decide_eq_true_iff

theorem counterOverflows_false {k n : Nat} (h : k + n < 2 ^ 32) : counterOverflows k n = false := by
  rw [← Bool.not_eq_true, counterOverflows_iff]; omega

/-- `INIT_MSG` without a key (R175, R182). -/
theorem initMessage_refused (x : Nonce) (h : s.eng.phase = .uninitialized) :
    initMessage c x s = s.fail .errUsage := by
  simp [initMessage, Phase.hasKey, h]

/-- `INIT_MSG` with a key (R177). -/
theorem initMessage_accepted (x : Nonce) (h : s.eng.phase ≠ .uninitialized) :
    initMessage c x s =
      { s with eng := { s.eng with n := nonceMac c s.eng x, ctr := ctrSeed (nonceMac c s.eng x),
                                   mac := macStart Config.tweakCtext, tag := 0, phase := .messageReady,
                                   status := .ok },
               result := .none, trace := nonceTrace c s.eng x } := by
  rw [← Phase.hasKey_iff] at h
  simp [initMessage, h, State.done]

/-- `AUTH` refused: outside a message, or out of the counter's range (R182, R183). -/
theorem authenticate_refused (n : Nat)
    (h : (s.eng.phase ≠ .messageReady ∧ s.eng.phase ≠ .streaming) ∨ 2 ^ 32 ≤ s.eng.mac.cnt + n) :
    authenticate c n s = s.fail .errUsage := by
  rw [authenticate]
  rcases h with h | h
  · rw [← not_or, ← Phase.inMessage_iff] at h; simp [h]
  · simp [(counterOverflows_iff _ _).2 h]

/-- `AUTH` of no bytes (R184). -/
theorem authenticate_empty (h : s.eng.phase = .messageReady ∨ s.eng.phase = .streaming)
    (hc : s.eng.mac.cnt < 2 ^ 32) : authenticate c 0 s = s.done .ok .none [] := by
  rw [← Phase.inMessage_iff] at h
  simp [authenticate, h, counterOverflows_false (n := 0) hc]

/-- `AUTH` of a chunk (R178). -/
theorem authenticate_chunk (n : Nat) (h : s.eng.phase = .messageReady ∨ s.eng.phase = .streaming)
    (hc : s.eng.mac.cnt + n < 2 ^ 32) (hn : n ≠ 0) :
    authenticate c n s =
      { s with eng := { s.eng with mac := macAbsorb (s.eng.encrypt c) s.eng.mac (s.buf.readBytes 0 n),
                                   phase := .streaming, status := .ok },
               result := .none,
               trace := .memRead 0 n ::
                 encryptEvents (macAbsorbInputs (s.eng.encrypt c) s.eng.mac (s.buf.readBytes 0 n)) } := by
  rw [← Phase.inMessage_iff] at h
  simp [authenticate, h, counterOverflows_false hc, hn, State.done, State.messageBytes, State.memRead]

/-- `CRYPT` refused: outside a message, or out of the counter's range (R182, R183). -/
theorem crypt_refused (n : Nat)
    (h : (s.eng.phase ≠ .messageReady ∧ s.eng.phase ≠ .streaming) ∨ 2 ^ 32 ≤ s.eng.ctr.ccnt + n) :
    crypt c n s = s.fail .errUsage := by
  rw [crypt]
  rcases h with h | h
  · rw [← not_or, ← Phase.inMessage_iff] at h; simp [h]
  · simp [(counterOverflows_iff _ _).2 h]

/-- `CRYPT` of no bytes (R184). -/
theorem crypt_empty (h : s.eng.phase = .messageReady ∨ s.eng.phase = .streaming)
    (hc : s.eng.ctr.ccnt < 2 ^ 32) : crypt c 0 s = s.done .ok .none [] := by
  rw [← Phase.inMessage_iff] at h
  simp [crypt, h, counterOverflows_false (n := 0) hc]

/-- `CRYPT` of a chunk (R179). -/
theorem crypt_chunk (n : Nat) (h : s.eng.phase = .messageReady ∨ s.eng.phase = .streaming)
    (hc : s.eng.ctr.ccnt + n < 2 ^ 32) (hn : n ≠ 0) :
    crypt c n s =
      { s with eng := { s.eng with ctr := ctrAdvance (s.eng.encrypt c) s.eng.ctr n, phase := .streaming,
                                   status := .ok },
               buf := s.buf.writeBytes 0 (ctrOutput (s.eng.encrypt c) s.eng.ctr (s.buf.readBytes 0 n)),
               result := .none,
               trace := .memRead 0 n ::
                 (encryptEvents (ctrInputs (s.eng.encrypt c) s.eng.ctr n) ++ [.memWrite 0 n]) } := by
  rw [← Phase.inMessage_iff] at h
  simp [crypt, h, counterOverflows_false hc, hn, State.done, State.messageBytes, State.memRead,
    State.memWrite]

/-- Byte `a` of the buffer after a `CRYPT` of `n` bytes (R71, R159). -/
theorem read_cryptOutput (E : Block → Block) (r : CtrState) (m : Memory) (n a : Nat) :
    (m.writeBytes 0 (ctrOutput E r (m.readBytes 0 n))).read a =
      if a < n then m.read a ^^^ ctrKeyByte E (ctrAdvance E r a) else m.read a := by
  rw [Memory.read_writeBytes]
  by_cases h : a < n
  · rw [dif_pos (by simp; omega), if_pos h, ctrOutput_getElem, Memory.readBytes_getElem]; simp
  · rw [dif_neg (by simp; omega), if_neg h]

/-- `FINAL_TAG` refused (R182; log 17). -/
theorem finalizeTag_refused (h : s.eng.phase ≠ .messageReady ∧ s.eng.phase ≠ .streaming) :
    finalizeTag c s = s.done .errUsage (.tag s.eng.tag) [] := by
  rw [← not_or, ← Phase.inMessage_iff] at h
  simp [finalizeTag, h]

/-- `FINAL_TAG` with diverging counts (R191). -/
theorem finalizeTag_errCount (h : s.eng.phase = .messageReady ∨ s.eng.phase = .streaming)
    (h1 : s.eng.mac.cnt ≠ s.eng.ctr.ccnt) (h2 : 0 < s.eng.ctr.ccnt) :
    finalizeTag c s =
      { s with eng := { s.eng with tag := 0, phase := .finalized, status := .errCount }, result := .tag 0,
               trace := [] } := by
  rw [← Phase.inMessage_iff] at h
  simp [finalizeTag, h, countStatus, h1, h2, State.done]

/-- `FINAL_TAG` that makes a tag (R180, R191). -/
theorem finalizeTag_tag (h : s.eng.phase = .messageReady ∨ s.eng.phase = .streaming)
    (h1 : s.eng.mac.cnt = s.eng.ctr.ccnt ∨ s.eng.ctr.ccnt = 0) :
    finalizeTag c s =
      { s with eng := { s.eng with tag := messageTag c s.eng, phase := .finalized,
                                   status := if s.eng.mac.cnt = s.eng.ctr.ccnt then .ok else .warnAuthOnly },
               result := .tag (messageTag c s.eng),
               trace := encryptEvents [macFinalBlock s.eng.padFull s.eng.padPartial s.eng.mac] } := by
  rw [← Phase.inMessage_iff] at h
  by_cases e : s.eng.mac.cnt = s.eng.ctr.ccnt
  · simp [finalizeTag, h, countStatus, e, State.done]
  · have h0 : s.eng.ctr.ccnt = 0 := h1.resolve_left e
    rw [h0] at e
    simp [finalizeTag, h, countStatus, e, State.done, h0]

/-- `FINAL_TAG` refused, or ended: with a tag or without, it ends the message (R180). -/
theorem finalizeTag_cases :
    (s.eng.phase.inMessage = false ∧ finalizeTag c s = s.done .errUsage (.tag s.eng.tag) []) ∨
    (s.eng.phase.inMessage = true ∧ ∃ code tag tr, (code = .ok ∨ code = .warnAuthOnly ∨ code = .errCount) ∧
      finalizeTag c s = { s with eng := { s.eng with tag := tag, phase := .finalized, status := code },
                                 result := .tag tag, trace := tr }) := by
  by_cases h : s.eng.phase = .messageReady ∨ s.eng.phase = .streaming
  · right
    refine ⟨(Phase.inMessage_iff _).2 h, ?_⟩
    by_cases h1 : s.eng.mac.cnt = s.eng.ctr.ccnt ∨ s.eng.ctr.ccnt = 0
    · refine ⟨_, _, _, ?_, finalizeTag_tag c s h h1⟩
      split <;> simp
    · exact ⟨_, _, _, by simp, finalizeTag_errCount c s h (by omega) (by omega)⟩
  · left
    refine ⟨?_, finalizeTag_refused c s (by simpa using h)⟩
    rw [← Phase.inMessage_iff] at h; simpa using h

/-- `AUTH` accepted, the empty chunk included (R178, R184). -/
theorem authenticate_accepted (n : Nat) (h : s.eng.phase = .messageReady ∨ s.eng.phase = .streaming)
    (hc : s.eng.mac.cnt + n < 2 ^ 32) :
    authenticate c n s =
      { s with eng := { s.eng with mac := macAbsorb (s.eng.encrypt c) s.eng.mac (s.buf.readBytes 0 n),
                                   phase := if n = 0 then s.eng.phase else .streaming, status := .ok },
               result := .none,
               trace := if n = 0 then [] else .memRead 0 n ::
                 encryptEvents (macAbsorbInputs (s.eng.encrypt c) s.eng.mac (s.buf.readBytes 0 n)) } := by
  by_cases hn : n = 0
  · subst hn; rw [authenticate_empty c s h hc]; rfl
  · rw [authenticate_chunk c s n h hc hn]; simp [hn]

/-- `CRYPT` accepted, the empty chunk included (R179, R184). -/
theorem crypt_accepted (n : Nat) (h : s.eng.phase = .messageReady ∨ s.eng.phase = .streaming)
    (hc : s.eng.ctr.ccnt + n < 2 ^ 32) :
    crypt c n s =
      { s with eng := { s.eng with ctr := ctrAdvance (s.eng.encrypt c) s.eng.ctr n,
                                   phase := if n = 0 then s.eng.phase else .streaming, status := .ok },
               buf := s.buf.writeBytes 0 (ctrOutput (s.eng.encrypt c) s.eng.ctr (s.buf.readBytes 0 n)),
               result := .none,
               trace := if n = 0 then [] else .memRead 0 n ::
                 (encryptEvents (ctrInputs (s.eng.encrypt c) s.eng.ctr n) ++ [.memWrite 0 n]) } := by
  by_cases hn : n = 0
  · subst hn; rw [crypt_empty c s h hc]; rfl
  · rw [crypt_chunk c s n h hc hn]; simp [hn]

end Sys2Proof.Machine
end

