-- ==== Sys2Proof/Laws/WholeMessage.lean ====
section
/-! SUPPORT. What the whole-message commands do, whole, through their sub-steps. -/

namespace Sys2Proof.Machine

variable (c : Cipher) (s : State)

/-- The ciphertext of a whole message: the buffer's first `n` bytes under the keystream of `N` (R210). -/
def cipherBytes (c : Cipher) (n : Nat) (x : Nonce) (s : State) : List Byte :=
  ctrOutput (s.eng.encrypt c) (ctrSeed (nonceMac c s.eng x)) (s.buf.readBytes 0 n)

/-- The engine at the end of a message whose authenticated bytes are `d` and whose counts agree (R180). -/
def messageEnd (c : Cipher) (n : Nat) (x : Nonce) (d : List Byte) (e : Engine) : Engine :=
  { e with n := nonceMac c e x, ctr := ctrAdvance (e.encrypt c) (ctrSeed (nonceMac c e x)) n,
           mac := macAbsorb (e.encrypt c) (macStart Config.tweakCtext) d,
           tag := firstFour (e.macFinish c (macAbsorb (e.encrypt c) (macStart Config.tweakCtext) d)) ^^^
             firstFour (nonceMac c e x),
           phase := .finalized, status := .ok }

theorem messageTag_eq {e f : Engine} (hk : e.ks = f.ks) (h1 : e.padFull = f.padFull)
    (h2 : e.padPartial = f.padPartial) : messageTag c e = firstFour (f.macFinish c e.mac) ^^^ firstFour e.n := by
  rw [messageTag, Engine.macFinish_congr c hk h1 h2]

/-- The events of a whole message's two passes (R70, R81). -/
def cryptTrace (c : Cipher) (n : Nat) (x : Nonce) (e : Engine) : List InterfaceEvent :=
  if n = 0 then [] else .memRead 0 n ::
    (encryptEvents (ctrInputs (e.encrypt c) (ctrSeed (nonceMac c e x)) n) ++ [.memWrite 0 n])

/-- The events of the authentication pass over `d` (R70, R81). -/
def authTrace (c : Cipher) (n : Nat) (d : List Byte) (e : Engine) : List InterfaceEvent :=
  if n = 0 then [] else .memRead 0 n ::
    encryptEvents (macAbsorbInputs (e.encrypt c) (macStart Config.tweakCtext) d)

/-- The event of the tag over `d` (R81). -/
def finalTrace (c : Cipher) (d : List Byte) (e : Engine) : List InterfaceEvent :=
  encryptEvents [macFinalBlock e.padFull e.padPartial (macAbsorb (e.encrypt c) (macStart Config.tweakCtext) d)]

theorem cipherBytes_length (n : Nat) (x : Nonce) : (cipherBytes c n x s).length = n := by
  simp [cipherBytes]

/-- Reading back the ciphertext that `CRYPT` left (R210). -/
theorem readBytes_cipherBytes (n : Nat) (x : Nonce) :
    (s.buf.writeBytes 0 (cipherBytes c n x s)).readBytes 0 n = cipherBytes c n x s := by
  have h := Memory.readBytes_writeBytes s.buf 0 (cipherBytes c n x s)
  rwa [cipherBytes_length] at h

/-- The phase after a first chunk of `n` bytes (R185). -/
theorem firstChunk_inMessage (n : Nat) :
    (if n = 0 then Phase.messageReady else .streaming) = .messageReady ∨
      (if n = 0 then Phase.messageReady else .streaming) = .streaming := by
  split <;> simp

/-- The engine inside a message begun with `x`, after `k` bytes of keystream and the authenticated bytes `d`. -/
def messageEngine (c : Cipher) (x : Nonce) (k : Nat) (d : List Byte) (p : Phase) (e : Engine) : Engine :=
  { e with n := nonceMac c e x, ctr := ctrAdvance (e.encrypt c) (ctrSeed (nonceMac c e x)) k,
           mac := macAbsorb (e.encrypt c) (macStart Config.tweakCtext) d, tag := 0, phase := p, status := .ok }

/-- `INIT_MSG` begins a message: no keystream used, no byte authenticated (R177). -/
theorem initMessage_engine (x : Nonce) (h : s.eng.phase ≠ .uninitialized) :
    initMessage c x s = { s with eng := messageEngine c x 0 [] .messageReady s.eng, result := .none,
                                 trace := nonceTrace c s.eng x } := initMessage_accepted c s x h

variable (e : Engine) (x : Nonce) (k n : Nat) (d : List Byte) (p : Phase) (m : Memory) (pend : List HostInput)
  (r : Result) (tr : List InterfaceEvent)

/-- `N` inside a message is the MAC of its nonce under the engine's own key (R39, R177). -/
theorem messageEngine_n :
    (messageEngine c x k d p e).n = nonceMac c (messageEngine c x k d p e) x := nonceMac_congr c rfl rfl rfl x

/-- The first `CRYPT` inside a message (R179). -/
theorem crypt_messageEngine (hp : p = .messageReady ∨ p = .streaming) (hn : n < 2 ^ 32) :
    crypt c n ⟨messageEngine c x 0 d p e, m, pend, r, tr⟩ =
      ⟨messageEngine c x n d (if n = 0 then p else .streaming) e,
        m.writeBytes 0 (ctrOutput (e.encrypt c) (ctrSeed (nonceMac c e x)) (m.readBytes 0 n)), pend, .none,
        cryptTrace c n x e⟩ := by
  rw [crypt_accepted _ _ _ hp (by simpa [messageEngine, ctrSeed] using hn)]
  rfl

/-- The first `AUTH` inside a message (R178). -/
theorem authenticate_messageEngine (hp : p = .messageReady ∨ p = .streaming) (hn : n < 2 ^ 32) :
    authenticate c n ⟨messageEngine c x k [] p e, m, pend, r, tr⟩ =
      ⟨messageEngine c x k (m.readBytes 0 n) (if n = 0 then p else .streaming) e, m, pend, .none,
        authTrace c n (m.readBytes 0 n) e⟩ := by
  rw [authenticate_accepted _ _ _ hp (by simpa [messageEngine, macStart] using hn)]
  rfl

/-- `FINAL_TAG` of a message whose counts agree (R180). -/
theorem finalizeTag_messageEngine (hp : p = .messageReady ∨ p = .streaming) :
    finalizeTag c ⟨messageEngine c x d.length d p e, m, pend, r, tr⟩ =
      ⟨messageEnd c d.length x d e, m, pend, .tag (messageEnd c d.length x d e).tag, finalTrace c d e⟩ := by
  have hc : (messageEngine c x d.length d p e).mac.cnt = (messageEngine c x d.length d p e).ctr.ccnt := by
    simp [messageEngine, macStart, ctrSeed]
  rw [finalizeTag_tag _ _ hp (.inl hc), if_pos hc]
  rfl

/-- The four sub-steps of `ENC_MSG` (R210). -/
theorem encrypt_substeps (h : s.eng.phase ≠ .uninitialized) (hn : n < 2 ^ 32) :
    ∃ s2 s3 s4, crypt c n (initMessage c x s) = s2 ∧ authenticate c n s2 = s3 ∧ finalizeTag c s3 = s4 ∧
      s2.eng.status = .ok ∧ s3.eng.status = .ok ∧
      s4 = ⟨messageEnd c n x (cipherBytes c n x s) s.eng, s.buf.writeBytes 0 (cipherBytes c n x s), s.pending,
        .tag (messageEnd c n x (cipherBytes c n x s) s.eng).tag, finalTrace c (cipherBytes c n x s) s.eng⟩ ∧
      s2.trace = cryptTrace c n x s.eng ∧ s3.trace = authTrace c n (cipherBytes c n x s) s.eng := by
  have h2 := crypt_messageEngine c s.eng x n [] .messageReady s.buf s.pending .none (nonceTrace c s.eng x)
    (.inl rfl) hn
  have h3 := fun tr => authenticate_messageEngine c s.eng x n n (if n = 0 then .messageReady else .streaming)
    (s.buf.writeBytes 0 (cipherBytes c n x s)) s.pending .none tr (firstChunk_inMessage n) hn
  have h4 := fun r tr => finalizeTag_messageEngine c s.eng x (cipherBytes c n x s)
    (if n = 0 then (if n = 0 then .messageReady else .streaming) else .streaming)
    (s.buf.writeBytes 0 (cipherBytes c n x s)) s.pending r tr
    (by split <;> simp)
  simp only [readBytes_cipherBytes] at h3
  rw [cipherBytes_length] at h4
  rw [initMessage_engine c s x h]
  exact ⟨_, _, _, h2, h3 _, h4 _ _, rfl, rfl, rfl, rfl, rfl⟩

/-- The plaintext of a whole message: the buffer's first `n` bytes under the keystream of `N` (R212). -/
abbrev plainBytes (c : Cipher) (n : Nat) (x : Nonce) (s : State) : List Byte := cipherBytes c n x s

/-- The four sub-steps of `DEC_MSG` (R212). -/
theorem decrypt_substeps (h : s.eng.phase ≠ .uninitialized) (hn : n < 2 ^ 32) :
    ∃ s2 s3 s4, authenticate c n (initMessage c x s) = s2 ∧ crypt c n s2 = s3 ∧ finalizeTag c s3 = s4 ∧
      s2.eng.status = .ok ∧ s3.eng.status = .ok ∧
      s4 = ⟨messageEnd c n x (s.buf.readBytes 0 n) s.eng, s.buf.writeBytes 0 (plainBytes c n x s), s.pending,
        .tag (messageEnd c n x (s.buf.readBytes 0 n) s.eng).tag, finalTrace c (s.buf.readBytes 0 n) s.eng⟩ ∧
      s2.trace = authTrace c n (s.buf.readBytes 0 n) s.eng ∧ s3.trace = cryptTrace c n x s.eng := by
  have h2 := authenticate_messageEngine c s.eng x 0 n .messageReady s.buf s.pending .none (nonceTrace c s.eng x)
    (.inl rfl) hn
  have h3 := fun tr => crypt_messageEngine c s.eng x n (s.buf.readBytes 0 n)
    (if n = 0 then .messageReady else .streaming) s.buf s.pending .none tr (firstChunk_inMessage n) hn
  have h4 := fun r tr => finalizeTag_messageEngine c s.eng x (s.buf.readBytes 0 n)
    (if n = 0 then (if n = 0 then .messageReady else .streaming) else .streaming)
    (s.buf.writeBytes 0 (plainBytes c n x s)) s.pending r tr
    (by split <;> simp)
  rw [Memory.readBytes_length] at h4
  rw [initMessage_engine c s x h]
  exact ⟨_, _, _, h2, h3 _, h4 _ _, rfl, rfl, rfl, rfl, rfl⟩

/-- `ENC_MSG` without a key (R175, R210). -/
theorem encryptMessage_refused (n : Nat) (x : Nonce) (h : s.eng.phase = .uninitialized) :
    encryptMessage c n x s = s.fail .errUsage := by
  simp [encryptMessage, Phase.hasKey, h]

/-- `DEC_MSG` without a key (R175, R212). -/
theorem decryptMessage_refused (n : Nat) (x : Nonce) (h : s.eng.phase = .uninitialized) :
    decryptMessage c n x s = s.fail .errUsage := by
  simp [decryptMessage, Phase.hasKey, h]

/-- The engine after `ENC_MSG` (R210). -/
abbrev sealedEngine (c : Cipher) (n : Nat) (x : Nonce) (s : State) : Engine :=
  messageEnd c n x (cipherBytes c n x s) s.eng

/-- The engine after `DEC_MSG` before the comparison (R212). -/
abbrev openedEngine (c : Cipher) (n : Nat) (x : Nonce) (s : State) : Engine :=
  messageEnd c n x (s.buf.readBytes 0 n) s.eng

/-- `ENC_MSG` with a key: what it does, whole (R210). -/
theorem encryptMessage_accepted (n : Nat) (x : Nonce) (h : s.eng.phase ≠ .uninitialized) (hn : n < 2 ^ 32) :
    encryptMessage c n x s =
      { s with
        eng := sealedEngine c n x s
        buf := (s.buf.writeBytes 0 (cipherBytes c n x s)).writeBytes n (toBytes (sealedEngine c n x s).tag)
        result := .none
        trace := nonceTrace c s.eng x ++ cryptTrace c n x s.eng ++ authTrace c n (cipherBytes c n x s) s.eng ++
          finalTrace c (cipherBytes c n x s) s.eng ++ [.memWrite n 4] } := by
  obtain ⟨s2, s3, s4, h2, h3, h4, -, -, h5, h6, h7⟩ := encrypt_substeps c s x n h hn
  rw [encryptMessage, if_pos ((Phase.hasKey_iff _).2 h)]
  simp only [h2, h3, h4, h6, h7, h5]
  rw [initMessage_accepted c s x h]
  rfl

/-- `DEC_MSG` with a key: what it does, whole (R212, R215, R216). -/
theorem decryptMessage_accepted (n : Nat) (x : Nonce) (h : s.eng.phase ≠ .uninitialized) (hn : n < 2 ^ 32) :
    decryptMessage c n x s =
      { s with
        eng := if tagDifference (openedEngine c n x s).tag (s.buf.readBytes n 4) = 0 then openedEngine c n x s
          else { openedEngine c n x s with tag := 0, status := .errAuth }
        buf := s.buf.writeBytes 0 (plainBytes c n x s)
        result := if tagDifference (openedEngine c n x s).tag (s.buf.readBytes n 4) = 0
          then .plain (plainBytes c n x s) else .authenticationError
        trace := .memRead n 4 :: (nonceTrace c s.eng x ++ authTrace c n (s.buf.readBytes 0 n) s.eng ++
          cryptTrace c n x s.eng ++ finalTrace c (s.buf.readBytes 0 n) s.eng) } := by
  obtain ⟨s2, s3, s4, h2, h3, h4, -, -, h5, h6, h7⟩ := decrypt_substeps c s x n h hn
  rw [decryptMessage, if_pos ((Phase.hasKey_iff _).2 h)]
  simp only [h2, h3, h4, h6, h7, h5]
  rw [initMessage_accepted c s x h]
  simp only [State.receivedTag, State.memRead, State.messageBytes, readBytes_cipherBytes, Config.tagBytes]
  split <;> rfl

/-- The difference is zero where all four bytes agree (R214). -/
theorem tagDifference_eq_zero (t : Tag) (d : List Byte) (h : d.length = 4) :
    tagDifference t d = 0 ↔ ∀ i < 4, d.getD i 0 = byteOf t i := by
  obtain ⟨a, b, c, e, rfl⟩ : ∃ a b c e, d = [a, b, c, e] := by
    match d, h with
    | [a, b, c, e], _ => exact ⟨a, b, c, e, rfl⟩
  have ht : toBytes t = [byteOf t 0, byteOf t 1, byteOf t 2, byteOf t 3] := rfl
  have hor : ∀ x y : Byte, x ||| y = 0 ↔ x = 0 ∧ y = 0 := fun x y => BitVec.or_eq_zero_iff
  have hx : ∀ x y : Byte, x ^^^ y = 0 ↔ y = x := fun x y => BitVec.xor_eq_zero_iff.trans eq_comm
  rw [tagDifference, ht]
  simp only [List.zipWith_cons_cons, List.zipWith_nil_right, List.foldl_cons, List.foldl_nil, hor, hx]
  constructor
  · rintro ⟨⟨⟨⟨-, h1⟩, h2⟩, h3⟩, h4⟩ i hi
    interval_cases i <;> simpa
  · intro h
    exact ⟨⟨⟨⟨trivial, h 0 (by omega)⟩, h 1 (by omega)⟩, h 2 (by omega)⟩, h 3 (by omega)⟩

end Sys2Proof.Machine
end

