-- ==== Sys2Proof/Laws/Step.lean ====
section
/-! SUPPORT. What every instruction and every step have in common. -/

namespace Sys2Proof.Machine

variable (c : Cipher) (s : State) (n : Nat) (x : Nonce)

@[simp] theorem initMessage_pending : (initMessage c x s).pending = s.pending := by
  rw [initMessage]; split <;> rfl

@[simp] theorem authenticate_pending : (authenticate c n s).pending = s.pending := by
  rw [authenticate]; repeat' split
  all_goals rfl

@[simp] theorem crypt_pending : (crypt c n s).pending = s.pending := by
  rw [crypt]; repeat' split
  all_goals rfl

@[simp] theorem finalizeTag_pending : (finalizeTag c s).pending = s.pending := by
  rcases finalizeTag_cases c s with ⟨_, e⟩ | ⟨_, _, _, _, _, e⟩
  · rw [e]; rfl
  · rw [e]

@[simp] theorem encryptMessage_pending : (encryptMessage c n x s).pending = s.pending := by
  rw [encryptMessage]; split
  · simp
  · rfl

@[simp] theorem decryptMessage_pending : (decryptMessage c n x s).pending = s.pending := by
  rw [decryptMessage]; split
  · dsimp only; split <;> simp
  · rfl

/-- Every instruction is `exec`'s next state of a function of the state (R239). -/
theorem exec_next (i : Instr) : ∃ t, exec i s = .next t := by cases i <;> exact ⟨_, rfl⟩

/-- No instruction consumes or presents a host input (R76). -/
theorem exec_pending {i : Instr} {s t : State} (h : exec i s = .next t) : t.pending = s.pending := by
  cases i with
  | initMsg x => cases h; exact initMessage_pending ..
  | auth len => cases h; exact authenticate_pending ..
  | crypt len => cases h; exact crypt_pending ..
  | finalTag => cases h; exact finalizeTag_pending ..
  | encMsg len x => cases h; exact encryptMessage_pending ..
  | decMsg len x => cases h; exact decryptMessage_pending ..
  | initKey _ | wipe | gfDbl _ | subkey | macStart _ | macAbsorb _ _ | macFinish _ | ctrSeed _ | ctrApply _
  | ctrInc _ => cases h; rfl

end Sys2Proof.Machine
end

