-- ==== Sys2Proof/Laws/Trace.lean ====
section
/-! SUPPORT. The encryptions and the buffer accesses among the events of a command. -/

namespace Sys2Proof.Machine

variable (off n : Nat) (b : Block) (key : Key) (inputs : List Block) (t u : List InterfaceEvent)

@[simp] theorem bufferAccesses_nil : bufferAccesses [] = [] := rfl
@[simp] theorem bufferAccesses_read : bufferAccesses (.memRead off n :: t) = .memRead off n :: bufferAccesses t := rfl
@[simp] theorem bufferAccesses_write : bufferAccesses (.memWrite off n :: t) = .memWrite off n :: bufferAccesses t :=
  rfl
@[simp] theorem bufferAccesses_key : bufferAccesses (.deriveKeySchedule key :: t) = bufferAccesses t := rfl
@[simp] theorem bufferAccesses_encrypt : bufferAccesses (.blockEncrypt b :: t) = bufferAccesses t := rfl

@[simp] theorem bufferAccesses_append : bufferAccesses (t ++ u) = bufferAccesses t ++ bufferAccesses u := by
  simp [bufferAccesses]

@[simp] theorem bufferAccesses_encryptEvents : bufferAccesses (encryptEvents inputs) = [] := by
  simp [bufferAccesses, encryptEvents]

@[simp] theorem encryptions_nil : encryptions [] = [] := rfl
@[simp] theorem encryptions_read : encryptions (.memRead off n :: t) = encryptions t := rfl
@[simp] theorem encryptions_write : encryptions (.memWrite off n :: t) = encryptions t := rfl
@[simp] theorem encryptions_key : encryptions (.deriveKeySchedule key :: t) = encryptions t := rfl
@[simp] theorem encryptions_encrypt : encryptions (.blockEncrypt b :: t) = b :: encryptions t := rfl

@[simp] theorem encryptions_append : encryptions (t ++ u) = encryptions t ++ encryptions u := by
  simp [encryptions]

@[simp] theorem encryptions_encryptEvents : encryptions (encryptEvents inputs) = inputs := by
  simp [encryptions, encryptEvents, List.filterMap_map]

end Sys2Proof.Machine
end

