-- ==== Sys2Proof/Machine/Assembler.lean ====
section
/-! DEFINITION. The assembler syntax in which the spec writes commands (R104), as a printer. -/

namespace Sys2Proof.Machine

/-- The mnemonic of every row of the table (R92, R106). -/
def mnemonic : Instr → String
  | .initKey _ => "INIT_KEY"
  | .initMsg _ => "INIT_MSG"
  | .auth _ => "AUTH"
  | .crypt _ => "CRYPT"
  | .finalTag => "FINAL_TAG"
  | .encMsg _ _ => "ENC_MSG"
  | .decMsg _ _ => "DEC_MSG"
  | .wipe => "WIPE"
  | .gfDbl _ => "GF_DBL"
  | .subkey => "SUBKEY"
  | .macStart _ => "MAC_START"
  | .macAbsorb _ _ => "MAC_ABSORB"
  | .macFinish _ => "MAC_FINISH"
  | .ctrSeed _ => "CTR_SEED"
  | .ctrApply _ => "CTR_APPLY"
  | .ctrInc _ => "CTR_INC"

/-- One hexadecimal digit, in capitals (R104). -/
def hexDigit (n : Nat) : Char := if n < 10 then Char.ofNat (48 + n) else Char.ofNat (55 + n)

/-- A byte string without separators (R104). -/
def hexBytes (d : List Byte) : String :=
  String.ofList (d.flatMap (fun b => [hexDigit (b.toNat / 16), hexDigit (b.toNat % 16)]))

/-- The operands of a command, each after a space; `len` in decimal (R104). The unit operations have no syntax. -/
def asmOperands : Instr → String
  | .initKey key => " key=" ++ hexBytes (toBytes key)
  | .initMsg nonce => " nonce=" ++ hexBytes (toBytes nonce)
  | .auth len => " len=" ++ toString len.toNat
  | .crypt len => " len=" ++ toString len.toNat
  | .encMsg len nonce => " len=" ++ toString len.toNat ++ " nonce=" ++ hexBytes (toBytes nonce)
  | .decMsg len nonce => " len=" ++ toString len.toNat ++ " nonce=" ++ hexBytes (toBytes nonce)
  | .finalTag | .wipe => ""
  | .gfDbl _ | .subkey | .macStart _ | .macAbsorb _ _ | .macFinish _ | .ctrSeed _ | .ctrApply _ | .ctrInc _ => ""

/-- A command as the spec writes it, its buffer not shown (R104). -/
def assembly (i : Instr) : String := mnemonic i ++ asmOperands i

end Sys2Proof.Machine
end

