-- ==== Sys2Proof/Tests/Slice0.lean ====
section
/-! SUPPORT. Tests. Expected values are the spec's: 95_test_vectors.md (its section is named at each), or a rule's own
words. The witnesses at the end show, for each obligation with hypotheses, states and operands that meet them. -/

namespace Sys2Proof.Tests

open Sys2Proof Sys2Proof.Machine

/-! ## Two ciphers -/

/-- One step of the toy cipher (95_test_vectors.md, section 2.1). -/
def toyStep (x : List Byte) (r : Nat) : List Byte :=
  let i := 15 - r % 16
  x.set i (x.getD i 0 + 5 * x.getD ((i + 1) % 16) 0 + BitVec.ofNat 8 (r + 1))

/-- `E_toy` (95_test_vectors.md, section 2.1). -/
def toyEncrypt (k : KeySchedule) (b : Block) : Block :=
  ofBytes 128 ((List.range 32).foldl toyStep (List.zipWith (fun x y => x ^^^ y) (toBytes b) k))

/-- The toy cipher: the key is its own schedule. -/
def toy : Cipher := ⟨fun k => toBytes k, toyEncrypt, fun _ => 0⟩

/-- The AES S-box: byte `i` is the substitute of `i` (general knowledge, as the spec's AES columns are). -/
def sbox : BitVec 2048 :=
  0x637C777BF26B6FC53001672BFED7AB76CA82C97DFA5947F0ADD4A2AF9CA472C0#256 ++
  0xB7FD9326363FF7CC34A5E5F171D8311504C723C31896059A071280E2EB27B275#256 ++
  0x09832C1A1B6E5AA0523BD6B329E32F8453D100ED20FCB15B6ACBBE394A4C58CF#256 ++
  0xD0EFAAFB434D338545F9027F503C9FA851A3408F929D38F5BCB6DA2110FFF3D2#256 ++
  0xCD0C13EC5F974417C4A77E3D645D197360814FDC222A908846EEB814DE5E0BDB#256 ++
  0xE0323A0A4906245CC2D3AC629195E479E7C8376D8DD54EA96C56F4EA657AAE08#256 ++
  0xBA78252E1CA6B4C6E8DD741F4BBD8B8A703EB5664803F60E613557B986C11D9E#256 ++
  0xE1F8981169D98E949B1E87E9CE5528DF8CA1890DBFE6426841992D0FB054BB16#256

/-- `SubBytes` of one byte. -/
def subByte (b : Byte) : Byte := byteOf sbox b.toNat
/-- Doubling in AES's field of bytes. -/
def xtime (b : Byte) : Byte := if b.msb then (b <<< 1) ^^^ 0x1B else b <<< 1
/-- XOR of byte lists. -/
def xorBytes (a b : List Byte) : List Byte := List.zipWith (fun x y => x ^^^ y) a b

/-- The next round key of AES-128. -/
def nextKey (k : List Byte) (rc : Byte) : List Byte :=
  let w0 := xorBytes (k.take 4)
    [subByte (k.getD 13 0) ^^^ rc, subByte (k.getD 14 0), subByte (k.getD 15 0), subByte (k.getD 12 0)]
  let w1 := xorBytes ((k.drop 4).take 4) w0
  let w2 := xorBytes ((k.drop 8).take 4) w1
  let w3 := xorBytes (k.drop 12) w2
  w0 ++ w1 ++ w2 ++ w3

/-- `n + 1` round keys. -/
def expandKey : Nat → List Byte → Byte → List Byte
  | 0, k, _ => k
  | n + 1, k, rc => k ++ expandKey n (nextKey k rc) (xtime rc)

/-- `ShiftRows` of a state in column order. -/
def shiftRows (s : List Byte) : List Byte :=
  (List.range 16).map (fun i => s.getD ((i + 4 * (i % 4)) % 16) 0)

/-- `MixColumns` of one column. -/
def mixColumn (a b c d : Byte) : List Byte :=
  [xtime a ^^^ xtime b ^^^ b ^^^ c ^^^ d, a ^^^ xtime b ^^^ xtime c ^^^ c ^^^ d,
   a ^^^ b ^^^ xtime c ^^^ xtime d ^^^ d, xtime a ^^^ a ^^^ b ^^^ c ^^^ xtime d]

/-- `MixColumns` of a state. -/
def mixColumns : List Byte → List Byte
  | a :: b :: c :: d :: s => mixColumn a b c d ++ mixColumns s
  | s => s

/-- `n` full rounds and the last. -/
def aesRounds : Nat → List Byte → List Byte → List Byte
  | 0, s, k => xorBytes (shiftRows (s.map subByte)) k
  | n + 1, s, k => aesRounds n (xorBytes (mixColumns (shiftRows (s.map subByte))) (k.take 16)) (k.drop 16)

/-- AES-128 of one block with the expanded key. -/
def aesEncrypt (k : KeySchedule) (b : Block) : Block :=
  ofBytes 128 (aesRounds 9 (xorBytes (toBytes b) (k.take 16)) (k.drop 16))

/-- AES-128. -/
def aes : Cipher := ⟨fun k => expandKey 10 (toBytes k) 1, aesEncrypt, fun _ => 0⟩

/-- `K0` of 95_test_vectors.md. -/
def key0 : Key := 0x000102030405060708090A0B0C0D0E0F

/-- `NON0` of 95_test_vectors.md. -/
def nonce0 : Nonce := 0x00010203040506

/-- The bytes `00 01 02 ...`. -/
def upTo (n : Nat) : List Byte := (List.range n).map (BitVec.ofNat 8)

/-- `s` with a buffer that holds `d`. -/
def holding (s : State) (d : List Byte) : State := { s with buf := Memory.writeBytes [] 0 d }

/-- The state after row 6 of section 2.5. -/
def keyed (c : Cipher) : State := initWithKey c key0 State.reset

/-- The state after row 9 of section 2.5. -/
def begun (c : Cipher) : State := initMessage c nonce0 (keyed c)

/-- The state after row 16 of section 2.5. -/
def authenticated (c : Cipher) : State := authenticate c 16 (holding (begun c) (upTo 16))

/-- Check value of section 2.1. -/
theorem test_toy_cipher : toyEncrypt (toBytes key0) 0 = 0x68A8451B5632BB8D94CC018F22761721 := by decide +kernel

/-- Check value of section 2.1. -/
theorem test_aes_cipher : aes.blockEncrypt (aes.deriveKeySchedule key0) 0 = 0xC6A13B37878F5B826F4F8162A1C8D879 := by
  decide +kernel

/-! ## Well-formedness -/

theorem test_wellFormed_tweak : (Instr.macStart 1).wellFormed = false ∧ (Instr.macStart 0).wellFormed = true ∧
    (Instr.macStart 2).wellFormed = true ∧ (Instr.macStart 3).wellFormed = false := by decide

theorem test_wellFormed_absorb_position : (Instr.macAbsorb ⟨0, 0, 0⟩ []).wellFormed = false ∧
    (Instr.macAbsorb ⟨0, 16, 0⟩ []).wellFormed = true ∧ (Instr.macAbsorb ⟨0, 16, 17⟩ []).wellFormed = false ∧
    (Instr.macAbsorb ⟨0, 1, 17⟩ []).wellFormed = true := by decide

theorem test_wellFormed_absorb_count : (Instr.macAbsorb ⟨0, 15, 4294967295⟩ [0]).wellFormed = false ∧
    (Instr.macAbsorb ⟨0, 15, 4294967295⟩ []).wellFormed = true := by decide

theorem test_wellFormed_finish_position : (Instr.macFinish ⟨0, 5, 0⟩).wellFormed = false ∧
    (Instr.macFinish ⟨0, 16, 0⟩).wellFormed = true := by decide

theorem test_wellFormed_finish_count : (Instr.macFinish ⟨0, 16, 4294967296⟩).wellFormed = false ∧
    (Instr.macFinish ⟨0, 15, 4294967295⟩).wellFormed = true := by decide

theorem test_wellFormed_apply_count : (∀ d : List Byte, d.length = 4294967296 →
    (Instr.ctrApply d).wellFormed = false) ∧ (Instr.ctrApply [0]).wellFormed = true := by
  refine ⟨fun d h => ?_, by decide⟩
  simp [Instr.wellFormed, countFits, Config.cntBits, h]

/-! ## Decoding: descriptors written out from R93 and section 2.7 -/

theorem test_decode_initKey :
    decode [0x01, 0x00, 0x01, 0x02, 0x03, 0x04, 0x05, 0x06, 0x07, 0x08, 0x09, 0x0A, 0x0B, 0x0C, 0x0D, 0x0E, 0x0F] =
      .command (.initKey 0x000102030405060708090A0B0C0D0E0F#128) := by decide

theorem test_decode_initMsg :
    decode [0x02, 0x00, 0x01, 0x02, 0x03, 0x04, 0x05, 0x06] = .command (.initMsg 0x00010203040506#56) := by decide

theorem test_decode_auth : decode [0x03, 0x00, 0x00, 0x01, 0x00] = .command (.auth 256#32) := by decide

theorem test_decode_crypt : decode [0x04, 0x01, 0x00, 0x00, 0x00] = .command (.crypt 16777216#32) := by decide

theorem test_decode_finalTag : decode [0x05] = .command .finalTag := by decide

theorem test_decode_encMsg : decode [0x06, 0x00, 0x00, 0x00, 0x2B, 0x00, 0x01, 0x02, 0x03, 0x04, 0x05, 0x06] =
    .command (.encMsg 43#32 0x00010203040506#56) := by decide

theorem test_decode_decMsg : decode [0x07, 0x00, 0x00, 0x00, 0x00, 0xFF, 0xFF, 0xFF, 0xFF, 0xFF, 0xFF, 0xFF] =
    .command (.decMsg 0#32 0xFFFFFFFFFFFFFF#56) := by decide

theorem test_decode_wipe : decode [0x08] = .command .wipe := by decide

/-- The unit operations, in the order of the table, are rejected by name (R101). -/
theorem test_decode_unit_operations :
    decode [0x10] = .illegal (.unitOperation 0x10) ∧ decode [0x11] = .illegal (.unitOperation 0x11) ∧
    decode [0x12] = .illegal (.unitOperation 0x12) ∧ decode [0x13] = .illegal (.unitOperation 0x13) ∧
    decode [0x14] = .illegal (.unitOperation 0x14) ∧ decode [0x15] = .illegal (.unitOperation 0x15) ∧
    decode [0x16] = .illegal (.unitOperation 0x16) ∧ decode [0x17] = .illegal (.unitOperation 0x17) := by decide

theorem test_unit_opcodes :
    (Instr.gfDbl 0).opcode = 0x10 ∧ Instr.subkey.opcode = 0x11 ∧ (Instr.macStart 0).opcode = 0x12 ∧
    (Instr.macAbsorb ⟨0, 16, 0⟩ []).opcode = 0x13 ∧ (Instr.macFinish ⟨0, 16, 0⟩).opcode = 0x14 ∧
    (Instr.ctrSeed 0).opcode = 0x15 ∧ (Instr.ctrApply []).opcode = 0x16 ∧ (Instr.ctrInc 0).opcode = 0x17 := by decide

theorem test_decode_illegal :
    decode [] = .illegal .empty ∧ decode [0x00] = .illegal (.noInstruction 0x00) ∧
    decode [0x09] = .illegal (.noInstruction 0x09) ∧ decode [0xFF] = .illegal (.noInstruction 0xFF) ∧
    decode [0x05, 0x00] = .illegal (.wrongLength 0x05 2) ∧
    decode [0x01, 0x00, 0x01, 0x02, 0x03, 0x04, 0x05, 0x06, 0x07, 0x08, 0x09, 0x0A, 0x0B, 0x0C, 0x0D, 0x0E] =
      .illegal (.wrongLength 0x01 16) ∧
    decode [0x02, 0x00, 0x01, 0x02, 0x03, 0x04, 0x05, 0x06, 0x07] = .illegal (.wrongLength 0x02 9) ∧
    decode [0x03, 0x00, 0x00, 0x00] = .illegal (.wrongLength 0x03 4) := by decide

/-- A table word: the first byte in the lowest bits (`03 00 00 01 00` is 0x0001000003). -/
theorem test_decodeTableWord : decodeTableWord 40 0x0001000003 = some (.auth 256#32) ∧
    decodeTableWord 8 0x02 = some (.initMsg 0#56) ∧ decodeTableWord 8 0x08 = some .wipe ∧
    decodeTableWord 8 0x10 = none := by decide

theorem test_assembly : assembly (.auth 256#32) = "AUTH len=256" ∧
    assembly (.initKey key0) = "INIT_KEY key=000102030405060708090A0B0C0D0E0F" ∧
    assembly (.encMsg 43#32 nonce0) = "ENC_MSG len=43 nonce=00010203040506" ∧ assembly .finalTag = "FINAL_TAG" := by
  decide

/-! ## The step -/

/-- `step` runs the word that `withFetchWord` presents. -/
theorem test_step_runs_fetch_word (s : State) :
    step (s.withFetchWord 8 0x05) = exec .finalTag { s with pending := s.pending } := rfl

/-- Row 1 of section 2.5, as a step from reset. -/
theorem test_step_initMsg_from_reset :
    step (State.reset.withFetchWord 64 0x0605040302010002) =
      .next { State.reset with eng := { Engine.reset with status := .errUsage } } := rfl

/-- An illegal descriptor (section 2.7): `STATUS = 05`, no other change of the engine or the buffer. -/
theorem test_step_illegal (s : State) : step (s.withFetchWord 8 0x10) =
    .next { s with eng := { s.eng with status := .errIllegal }, result := .none, trace := [] } := rfl

/-- A platform reset between commands (R260). -/
theorem test_step_reset (s : State) : step (presentNext .reset s) =
    .next { s with eng := Engine.reset, result := .none, trace := [] } := rfl

/-- Nothing presented. -/
theorem test_step_waits : step State.reset = .next State.reset := rfl

/-! ## Unit operations -/

/-- Section 2.2. -/
theorem test_gfDbl_reduces : dbl 0x80000000000000000000000000000000 = 0x87 ∧
    dbl 0xFFFFFFFFFFFFFFFFFFFFFFFFFFFFFFFF = 0xFFFFFFFFFFFFFFFFFFFFFFFFFFFFFF79 := by decide

/-- Section 2.2. -/
theorem test_gfDbl_shifts : dbl 0x0123456789ABCDEFFEDCBA9876543210 = 0x02468ACF13579BDFFDB97530ECA86420 := by decide

/-- Section 2.2, toy `K0`: only the second doubling reduces. -/
theorem test_subkey_toy : (subkeyUnit toy (keyed toy)).eng.padFull = 0xD1508A36AC65771B2998031E44EC2E42 ∧
    (subkeyUnit toy (keyed toy)).eng.padPartial = 0xA2A1146D58CAEE365330063C89D85C03 := by decide +kernel

/-- Section 2.2, AES `K0`: both doublings reduce. -/
theorem test_subkey_aes : (keyed aes).eng.padFull = 0x8D42766F0F1EB704DE9F02C54391B075 ∧
    (keyed aes).eng.padPartial = 0x1A84ECDE1E3D6E09BD3E058A8723606D := by decide +kernel

/-- Section 2.3, row `t = 2, n = 0`. -/
theorem test_macStart : macStart 2 = ⟨2, 16, 0⟩ ∧ macStart 0 = ⟨0, 16, 0⟩ := by decide

/-- Section 2.3, toy, row `t = 2, n = 16`: the block is full and its encryption pending. -/
theorem test_macAbsorb_full : (macAbsorbUnit toy (macStart 2) (upTo 16) (keyed toy)).result =
    .accumulator ⟨0x2E094DBC605F8B7EE2B591C8CC237792, 16, 16⟩ := by decide +kernel

/-- Section 2.3, toy, row `t = 2, n = 17`: the 17th byte encrypts the full block. -/
theorem test_macAbsorb_chains : (macAbsorbUnit toy (macStart 2) (upTo 17) (keyed toy)).result =
    .accumulator ⟨0xC28CD1EE2DD922613C2AD7E89FDF1063, 1, 17⟩ := by decide +kernel

/-- Section 2.3, toy, row `t = 2, n = 16`: `PAD_FULL`. -/
theorem test_macFinish_full :
    (macFinishUnit toy ⟨0x2E094DBC605F8B7EE2B591C8CC237792, 16, 16⟩ (keyed toy)).result =
      .block 0x4962F7545955B2D29B88EDBE5A417527 := by decide +kernel

/-- Section 2.3, AES, row `t = 0, n = 15`: the pad byte in the last place, `PAD_PARTIAL`. -/
theorem test_macFinish_partial :
    (macFinishUnit aes ⟨0xC6A03934838A5D8567468B69ADC5D679, 15, 15⟩ (keyed aes)).result =
      .block 0x1484D8C00ABB3A31F8E0656433B12828 := by decide +kernel

/-- Section 2.4. -/
theorem test_ctrInc : inc 0xFFFFFFFFFFFFFFFFFFFFFFFFFFFFFFFF = 0 ∧
    inc 0x7FFFFFFFFFFFFFFFFFFFFFFFFFFFFFFF = 0x80000000000000000000000000000000 ∧
    inc 0x0000000000000000FFFFFFFFFFFFFFFF = 0x00000000000000010000000000000000 := by decide

/-- R158. -/
theorem test_ctrSeed : ctrSeed 7 = ⟨7, 0, 0, 0⟩ := by decide

/-- Section 2.4, toy, seed `FF^16`: 40 keystream bytes, through the wrap of the counter. -/
theorem test_ctrApply_keystream :
    (ctrApplyUnit toy (List.replicate 40 0)
      { keyed toy with eng := { (keyed toy).eng with ctr := ctrSeed 0xFFFFFFFFFFFFFFFFFFFFFFFFFFFFFFFF } }).result =
    .bytes [0x4F, 0xD0, 0x2D, 0xC8, 0x73, 0xD0, 0xB1, 0x78, 0x77, 0x50, 0x55, 0xE8, 0xDB, 0xD0, 0x99, 0x98,
            0x68, 0xA8, 0x45, 0x1B, 0x56, 0x32, 0xBB, 0x8D, 0x94, 0xCC, 0x01, 0x8F, 0x22, 0x76, 0x17, 0x21,
            0x4B, 0x58, 0xCA, 0xED, 0x5D, 0xC6, 0xA4, 0x03] := by decide +kernel

/-- Section 2.4, toy, seed `00^15 FE`: the registers after 40 bytes. -/
theorem test_ctrApply_registers : (ctrApplyUnit toy (List.replicate 40 0)
      { keyed toy with eng := { (keyed toy).eng with ctr := ctrSeed 0xFE } }).eng.ctr.ctr = 0x101 ∧
    (ctrApplyUnit toy (List.replicate 40 0)
      { keyed toy with eng := { (keyed toy).eng with ctr := ctrSeed 0xFE } }).eng.ctr.ksPos.val = 8 := by
  decide +kernel

/-! ## Session commands -/

/-- Section 2.5, row 6. -/
theorem test_initKey : (keyed toy).eng.phase = .keyed ∧ (keyed toy).eng.status = .ok ∧
    (keyed toy).eng.padFull = 0xD1508A36AC65771B2998031E44EC2E42 := by decide +kernel

/-- Section 2.5, row 22: the state after `INIT_KEY` does not depend on the message in flight. -/
theorem test_initKey_discards : (initWithKey toy key0 (authenticated toy)).eng = (keyed toy).eng := by decide +kernel

/-- Section 2.5, row 9, and section 2.3, toy, row `t = 0, n = 7`. -/
theorem test_initMsg : (begun toy).eng.n = 0x78D8EFF71BE34255EC318A9816820ED1 ∧
    (begun toy).eng.ctr.ctr = (begun toy).eng.n ∧ (begun toy).eng.mac = ⟨2, 16, 0⟩ ∧
    (begun toy).eng.phase = .messageReady := by decide +kernel

/-- Section 2.5, row 16. -/
theorem test_auth : (authenticated toy).eng.mac = ⟨0x2E094DBC605F8B7EE2B591C8CC237792, 16, 16⟩ ∧
    (authenticated toy).eng.phase = .streaming ∧ encryptions (authenticated toy).trace = [2] := by decide +kernel

/-- Section 2.5, rows 24 and 25. -/
theorem test_auth_range :
    (authenticate toy 2 { begun toy with eng := { (begun toy).eng with
      mac := ⟨2, 14, 4294967294⟩ } }).eng.status = .errUsage ∧
    (authenticate toy 1 { begun toy with eng := { (begun toy).eng with
      mac := ⟨2, 14, 4294967294⟩ } }).eng.mac.cnt = 4294967295 := by decide +kernel

/-- Section 2.5, row 17: two encryptions, `KS_POS = 4`. -/
theorem test_crypt : (crypt toy 20 (authenticated toy)).eng.ctr.ksPos.val = 4 ∧
    (crypt toy 20 (authenticated toy)).eng.ctr.ccnt = 20 ∧
    (encryptions (crypt toy 20 (authenticated toy)).trace).length = 2 := by decide +kernel

/-- Section 3.2, AES: the first ten bytes of the known-answer vector. -/
theorem test_crypt_aes : (crypt aes 10 (holding (begun aes) (upTo 10))).buf.readBytes 0 10 =
    [0xF2, 0xD7, 0xF3, 0xDE, 0xF3, 0x61, 0x85, 0x5F, 0xCB, 0x5E] := by decide +kernel

/-- Section 2.5, row 19. -/
theorem test_finalTag_authOnly : (finalizeTag toy (authenticated toy)).eng.status = .warnAuthOnly ∧
    (finalizeTag toy (authenticated toy)).eng.tag = 0x31BA18A3 := by decide +kernel

/-- Section 2.5, rows 18 and 20. -/
theorem test_finalTag_errCount :
    (finalizeTag toy (crypt toy 20 (authenticated toy))).eng.status = .errCount ∧
    (finalizeTag toy (crypt toy 20 (authenticated toy))).eng.tag = 0 ∧
    (finalizeTag toy (crypt toy 5 (begun toy))).eng.status = .errCount := by decide +kernel

/-- The known-answer vector the source gives (section 1.1). -/
theorem test_encMsg_known_answer :
    (encryptMessage aes 43 nonce0 (holding (keyed aes) (upTo 43))).buf.readBytes 0 47 =
    [0xF2, 0xD7, 0xF3, 0xDE, 0xF3, 0x61, 0x85, 0x5F, 0xCB, 0x5E, 0x7E, 0xF4, 0x96, 0x51, 0x44, 0x6E,
     0x24, 0x9C, 0x81, 0xA7, 0x63, 0x34, 0xF7, 0x4D, 0xC4, 0xD6, 0xAA, 0x31, 0xB3, 0x77, 0x65, 0x7B,
     0x02, 0xB4, 0xF4, 0x49, 0xF1, 0x75, 0xF2, 0x1A, 0x54, 0x64, 0x50, 0xA1, 0x16, 0x0F, 0xE4] := by decide +kernel

/-- The cipher calls of the known-answer vector, in order (section 1.2, calls 2 to 10). -/
theorem test_encMsg_cipher_calls :
    encryptions (encryptMessage aes 43 nonce0 (holding (keyed aes) (upTo 43))).trace =
    [0, 0xDC24D5EA9DB7330BD27184E826EBB814, 0xBB1411257A0745B4EFBC5A3C939172B5,
     0xBB1411257A0745B4EFBC5A3C939172B6, 0xBB1411257A0745B4EFBC5A3C939172B7, 2,
     0xBB01748D6AFA23D328D7049CF6D0F4F3, 0x0D7E746B18A754B7E3358C5D718AAED8,
     0xE26DD1341A860A41464FFAF389F4092E] := by decide +kernel

/-- Section 2.6, the intact toy message. -/
theorem test_decMsg : (decryptMessage toy 5 nonce0
      (holding (keyed toy) [0x37, 0xCD, 0xA2, 0x71, 0x53, 0x02, 0x1E, 0x8D, 0x34])).eng.status = .ok ∧
    (decryptMessage toy 5 nonce0
      (holding (keyed toy) [0x37, 0xCD, 0xA2, 0x71, 0x53, 0x02, 0x1E, 0x8D, 0x34])).result =
      .plain [0x48, 0x65, 0x6C, 0x6C, 0x6F] := by decide +kernel

/-- Section 2.6, a ciphertext bit changed: the provisional plaintext stays in the buffer, and no tag. -/
theorem test_decMsg_tampered :
    (decryptMessage toy 5 nonce0
      (holding (keyed toy) [0x37, 0xCC, 0xA2, 0x71, 0x53, 0x02, 0x1E, 0x8D, 0x34])).eng.status = .errAuth ∧
    (decryptMessage toy 5 nonce0
      (holding (keyed toy) [0x37, 0xCC, 0xA2, 0x71, 0x53, 0x02, 0x1E, 0x8D, 0x34])).buf.readBytes 0 9 =
      [0x48, 0x64, 0x6C, 0x6C, 0x6F, 0x02, 0x1E, 0x8D, 0x34] ∧
    (decryptMessage toy 5 nonce0
      (holding (keyed toy) [0x37, 0xCC, 0xA2, 0x71, 0x53, 0x02, 0x1E, 0x8D, 0x34])).eng.tag = 0 := by decide +kernel

/-- Section 2.5, rows 5 and 23. -/
theorem test_wipe : (wipeSession (authenticated toy)).eng = Engine.reset ∧ wipeSession State.reset = State.reset := by
  decide +kernel

/-! ## Operand buffers (R97) -/

/-- `AUTH len=1` with a buffer of one byte. -/
def authOneByte : HostInput := .command [0x03, 0x00, 0x00, 0x00, 0x01] ⟨[(0, 0x55)], rfl⟩

/-- The lengths that descriptors fix: `LEN`, `LEN + 4`, and no buffer. -/
theorem test_operandLength : operandLength [0x03, 0x00, 0x00, 0x01, 0x00] = 256 ∧
    operandLength [0x04, 0x00, 0x00, 0x00, 0x0A] = 10 ∧
    operandLength [0x06, 0x00, 0x00, 0x00, 0x2B, 0x00, 0x01, 0x02, 0x03, 0x04, 0x05, 0x06] = 47 ∧
    operandLength [0x07, 0x00, 0x00, 0x00, 0x00, 0xFF, 0xFF, 0xFF, 0xFF, 0xFF, 0xFF, 0xFF] = 4 ∧
    operandLength [0x08] = 0 ∧ operandLength [0x10] = 0 := by decide

/-- `WIPE` has no buffer, and a byte past the length is in no buffer. -/
theorem test_buffer_of_other_length (b : Buffer (operandLength [0x08]))
    (b' : Buffer (operandLength [0x04, 0x00, 0x00, 0x00, 0x01])) : b.cells = [] ∧ (1, 0x55) ∉ b'.cells :=
  ⟨Buffer.cells_of_zero b, fun h => absurd ((Memory.within_iff _ _).1 b'.within _ h) (by decide)⟩

/-- `step` serves `CRYPT len=1` on the whole of the buffer handed over: row 3 of section 2.5. -/
theorem test_step_hands_over : ∃ t, step (presentNext
      (.command [0x04, 0x00, 0x00, 0x00, 0x01] ⟨[(0, 0x55)], rfl⟩) State.reset) = .next t ∧
    t.buf = [(0, 0x55)] ∧ t.eng.status = .errUsage := ⟨_, rfl, rfl, rfl⟩

/-! ## Witnesses: states and operands that meet the hypotheses of each obligation -/

/-- A state in phase `p` with a key, `a` bytes authenticated and `k` bytes of keystream used, and the positions that
belong to these counts. -/
def inPhase (p : Phase) (a k : Nat) : State :=
  { State.reset with eng := { Engine.reset with
      ks := some [], phase := p, mac := ⟨0, Fin.ofNat 17 (if a = 0 then 16 else (a - 1) % 16 + 1), a⟩,
      ctr := ⟨0, 0, Fin.ofNat 17 (if k = 0 then 0 else (k - 1) % 16 + 1), k⟩ } }

/-- A state of the machine right after `INIT_KEY`. -/
def keyedState : State := initWithKey Config.cipher key0 State.reset

/-- The key schedule of `keyedState` is its key's. -/
theorem keyedState_ks : keyedState.eng.ks = some (Config.cipher.deriveKeySchedule key0) :=
  have h : ∀ c s, (initWithKey c key0 s).eng.ks = some (c.deriveKeySchedule key0) := fun _ _ => rfl
  h _ _

/-- The padding pair of `keyedState` is its key's. -/
theorem keyedState_pads : keyedState.eng.padFull = dbl (keyedState.eng.encrypt Config.cipher zeroBlock) ∧
    keyedState.eng.padPartial = dbl keyedState.eng.padFull :=
  have h : ∀ c s, (initWithKey c key0 s).eng.padFull = dbl ((initWithKey c key0 s).eng.encrypt c zeroBlock) ∧
      (initWithKey c key0 s).eng.padPartial = dbl (initWithKey c key0 s).eng.padFull := fun _ _ => ⟨rfl, rfl⟩
  h _ _

theorem keyedState_phase : keyedState.eng.phase ≠ .uninitialized := by decide

/-- The machine right after `INIT_MSG` in `keyedState`. -/
def begunState : State :=
  { keyedState with eng := messageEngine Config.cipher nonce0 0 [] .messageReady keyedState.eng, trace := [] }

theorem begunState_phase : begunState.eng.phase = .messageReady := rfl

theorem begunState_counts : begunState.eng.mac.cnt = 0 ∧ begunState.eng.ctr.ccnt = 0 := by
  simp [begunState, messageEngine, macStart, ctrSeed]

/-- `begunState` is what `INIT_MSG` leaves, but for the trace. -/
theorem begunState_reached : ∃ t, exec (.initMsg nonce0) keyedState = .next t ∧ { t with trace := [] } = begunState :=
  ⟨_, congrArg Host.Outcome.next (initMessage_engine Config.cipher keyedState nonce0 keyedState_phase), rfl⟩

/-- `keyedState` with the tag of the empty message, each byte XORed with `v`, in the buffer. -/
def emptyMessage (v : Tag) : State :=
  { keyedState with
    buf := Memory.writeBytes [] 0 (toBytes ((openedEngine Config.cipher 0 nonce0 keyedState).tag ^^^ v)) }

theorem read_emptyMessage (v : Tag) (i : Nat) (h : i < 4) :
    (emptyMessage v).buf.read (0 + i) = byteOf (openedEngine Config.cipher 0 nonce0 (emptyMessage v)).tag i ^^^
      byteOf v i := by
  have hr : (emptyMessage v).buf.read (0 + i) =
      byteOf ((openedEngine Config.cipher 0 nonce0 keyedState).tag ^^^ v) i := by
    simp only [emptyMessage]
    rw [Memory.read_writeBytes, dif_pos (by simp; omega), toBytes_getElem]
    simp
  rw [hr, byteOf_xor]
  rfl

theorem witness_DecodeOfEncodeIsTheCommand :
    (Instr.initKey key0).hostIssuable = true ∧ (Instr.initMsg 0).hostIssuable = true ∧
    (Instr.auth 0).hostIssuable = true ∧ (Instr.crypt 0xFFFFFFFF).hostIssuable = true ∧
    Instr.finalTag.hostIssuable = true ∧ (Instr.encMsg 1 0).hostIssuable = true ∧
    (Instr.decMsg 1 0).hostIssuable = true ∧ Instr.wipe.hostIssuable = true := by decide

theorem witness_EncodeOfDecodeIsTheDescriptor :
    decode [0x03, 0xFF, 0xFF, 0xFF, 0xFF] = .command (.auth 0xFFFFFFFF#32) ∧ decode [0x08] = .command .wipe := by
  decide

theorem witness_IllegalDescriptorsFailWithErrIllegal :
    (presentNext (.command [0x05, 0x00] (Buffer.zeros _)) State.reset).pending =
      [HostInput.command [0x05, 0x00] (Buffer.zeros _)] ∧
    decode [0x05, 0x00] = .illegal (.wrongLength 0x05 2) := by decide

theorem witness_UnitOperationsAreNotHostIssuable :
    (0x10 ≤ (0x10 : Byte).toNat ∧ (0x10 : Byte).toNat ≤ 0x17) ∧
    (0x10 ≤ (0x17 : Byte).toNat ∧ (0x17 : Byte).toNat ≤ 0x17) ∧ (Instr.ctrInc 0).hostIssuable = false := by decide

/-- A command with a buffer of its length, and one without a buffer. -/
theorem witness_StepRunsTheDecodedCommand :
    ((presentNext authOneByte State.reset).pending = [authOneByte] ∧
      decode [0x03, 0x00, 0x00, 0x00, 0x01] = .command (.auth 1#32) ∧ bufferLength (.auth 1#32) ≠ 0) ∧
    ((presentNext (.command [0x05] (Buffer.zeros _)) State.reset).pending =
        [HostInput.command [0x05] (Buffer.zeros _)] ∧
      decode [0x05] = .command .finalTag ∧ bufferLength .finalTag = 0) := by decide

theorem witness_ResetGivesEveryElementItsValue :
    (presentNext .reset (inPhase .streaming 1 1)).pending = [HostInput.reset] := by decide

/-- A message just begun, under any cipher, with a key's schedule and pads, meets the engine's invariant. -/
theorem freshMessage_inv (c : Cipher) (x : Nonce) (e : Engine) (hk : ∃ key, e.ks = some (c.deriveKeySchedule key))
    (hp : e.padFull = dbl (e.encrypt c zeroBlock) ∧ e.padPartial = dbl e.padFull) :
    EngineInv c (messageEngine c x 0 [] .messageReady e) := by
  have hb := ctrSeed_belongs (e.encrypt c) (nonceMac c e x)
  refine ⟨?_, fun _ => hk, fun _ => hp, ?_, fun _ => ⟨x, messageEngine_n _ _ _ _ _ _⟩, fun _ => ⟨[], rfl, rfl⟩,
    fun _ => macStart_posMatchesCount _, fun _ => hb.ksPos, fun _ => ?_, fun _ => rfl, fun _ => ⟨rfl, rfl⟩, ?_,
    ⟨?_, ?_⟩, fun _ => rfl⟩
  · intro h; cases h
  · intro h; cases h
  · change (ctrSeed (nonceMac c e x)).ctr.toNat = _
    simp [ctrSeed, blocksFor, messageEngine]
    exact (Nat.mod_eq_of_lt (nonceMac c e x).isLt).symm
  · intro h; cases h
  · change 0 < 2 ^ 32; decide
  · change 0 < 2 ^ 32; decide

/-- `begunState` meets the invariant: a state inside a message, with the machine's open cipher. -/
theorem begunState_inv : begunState.Inv :=
  ⟨freshMessage_inv _ _ _ ⟨key0, keyedState_ks⟩ keyedState_pads, rfl⟩

/-- A state inside a message in which the host has presented a chunk. -/
theorem witness_EveryStepKeepsTheInvariant : (presentNext authOneByte begunState).Inv ∧
    ∃ t, step (presentNext authOneByte begunState) = .next t :=
  ⟨⟨begunState_inv.engine, begunState_inv.buffer⟩, _, rfl⟩

/-- A fill position at both ends of the partial clause, and the full one. -/
theorem witness_MacFinishPadsAndEncrypts :
    (⟨0, 0, 0⟩ : Accumulator).pos.val < 16 ∧ (⟨0, 15, 15⟩ : Accumulator).pos.val < 16 ∧
    (⟨0, 16, 16⟩ : Accumulator).pos.val = 16 := by decide

/-- The last byte, the first byte with all others 0xFF, and a byte the carry does not reach. -/
theorem witness_CtrIncCarriesThroughAllBytes :
    (∀ j, 15 < j → j < 16 → byteOf (0 : Block) j = 0xFF) ∧
    (∀ j, 0 < j → j < 16 → byteOf (0xFFFFFFFFFFFFFFFFFFFFFFFFFFFFFF : Block) j = 0xFF) ∧
    (∃ j, 0 < j ∧ j < 16 ∧ byteOf (0 : Block) j ≠ 0xFF) ∧
    (∃ j, 14 < j ∧ j < 16 ∧ byteOf (0 : Block) j ≠ 0xFF) := by
  refine ⟨fun j _ _ => by omega, ?_, ⟨1, by decide⟩, ⟨15, by decide⟩⟩
  intro j h1 h2
  interval_cases j <;> decide

/-- The three reasons for a fresh block or none: the start, an exhausted cache, and neither. -/
theorem witness_CtrApplyTakesOneByteAtATime :
    (inPhase .streaming 0 0).eng.ctr.ccnt = 0 ∧ 16 ≤ (⟨0, 0, 16, 16⟩ : CtrState).ksPos.val ∧
    ¬ (16 ≤ (inPhase .streaming 0 5).eng.ctr.ksPos.val ∨ (inPhase .streaming 0 5).eng.ctr.ccnt = 0) := by decide

theorem witness_KeystreamIsTheEncryptedCounterSequence :
    begunState.eng.ctr = { ctr := begunState.eng.n, ksCache := 0, ksPos := 0, ccnt := 0 } := rfl

theorem witness_InitMsgBeginsAMessage :
    State.reset.eng.phase = .uninitialized ∧ (inPhase .keyed 0 0).eng.phase ≠ .uninitialized ∧
    (inPhase .finalized 3 3).eng.phase ≠ .uninitialized := by decide

/-- The phase clause, the range clause at its boundary, and the accepted chunks on its other side. -/
theorem witness_AuthAbsorbsTheChunk :
    ((inPhase .finalized 0 0).eng.phase ≠ .messageReady ∧ (inPhase .finalized 0 0).eng.phase ≠ .streaming) ∧
    2 ^ 32 ≤ (inPhase .streaming 4294967294 0).eng.mac.cnt + (2 : Len).toNat ∧
    ((inPhase .streaming 4294967294 0).eng.phase = .streaming ∧
      (inPhase .streaming 4294967294 0).eng.mac.cnt + (1 : Len).toNat < 2 ^ 32 ∧ (1 : Len).toNat ≠ 0 ∧
      (inPhase .streaming 4294967294 0).eng.mac.posMatchesCount = true) ∧
    ((inPhase .messageReady 0 0).eng.phase = .messageReady ∧
      (inPhase .messageReady 0 0).eng.mac.cnt + (0 : Len).toNat < 2 ^ 32 ∧ (0 : Len).toNat = 0) := by decide

/-- The phase clause, the range clause at its boundary, and the accepted chunks on its other side. -/
theorem witness_CryptAppliesTheKeystream :
    ((inPhase .keyed 0 0).eng.phase ≠ .messageReady ∧ (inPhase .keyed 0 0).eng.phase ≠ .streaming) ∧
    2 ^ 32 ≤ (inPhase .streaming 0 4294967295).eng.ctr.ccnt + (1 : Len).toNat ∧
    ((inPhase .messageReady 0 0).eng.phase = .messageReady ∧
      (inPhase .messageReady 0 0).eng.ctr.ccnt + (0xFFFFFFFF : Len).toNat < 2 ^ 32 ∧ (0xFFFFFFFF : Len).toNat ≠ 0 ∧
      (inPhase .messageReady 0 0).eng.ctr.ksPos.val = 0 ∧ (inPhase .messageReady 0 0).eng.ctr.ccnt = 0) ∧
    ((inPhase .streaming 0 4294967295).eng.phase = .streaming ∧
      (inPhase .streaming 0 4294967295).eng.ctr.ccnt + (0 : Len).toNat < 2 ^ 32 ∧ (0 : Len).toNat = 0) := by decide

/-- Outside a message; diverging counts; equal counts; nothing decrypted. -/
theorem witness_FinalTagChecksTheCountsAndMakesTheTag :
    ((inPhase .keyed 0 0).eng.phase ≠ .messageReady ∧ (inPhase .keyed 0 0).eng.phase ≠ .streaming) ∧
    ((inPhase .streaming 0 1).eng.phase = .streaming ∧
      (inPhase .streaming 0 1).eng.mac.cnt ≠ (inPhase .streaming 0 1).eng.ctr.ccnt ∧
      0 < (inPhase .streaming 0 1).eng.ctr.ccnt) ∧
    ((inPhase .messageReady 0 0).eng.phase = .messageReady ∧
      (inPhase .messageReady 0 0).eng.mac.cnt = (inPhase .messageReady 0 0).eng.ctr.ccnt) ∧
    ((inPhase .streaming 1 0).eng.phase = .streaming ∧ (inPhase .streaming 1 0).eng.ctr.ccnt = 0 ∧
      (inPhase .streaming 1 0).eng.mac.cnt ≠ (inPhase .streaming 1 0).eng.ctr.ccnt) := by decide

/-- A cell of the table that refuses, the counter range, a cell that accepts, and an illegal descriptor. -/
theorem witness_CommandsFollowThePhaseTable :
    phaseAfter (.auth 1) .finalized = none ∧ overflowsCounter (.auth 2) (inPhase .streaming 4294967294 0).eng = true ∧
    (phaseAfter (.auth 1) .messageReady = some .streaming ∧
      overflowsCounter (.auth 1) (inPhase .messageReady 0 0).eng = false) ∧
    (∃ t, (presentNext (.command [0x10] (Buffer.zeros _)) State.reset).pending =
        [HostInput.command [0x10] (Buffer.zeros _)] ∧
      decode [0x10] = .illegal (.unitOperation 0x10) ∧
      step (presentNext (.command [0x10] (Buffer.zeros _)) State.reset) = .next t) :=
  ⟨by decide, by decide, by decide, _, by decide, by decide, rfl⟩

theorem witness_UsageErrorsChangeNothing :
    ∃ t, Instr.finalTag.hostIssuable = true ∧ exec .finalTag State.reset = .next t ∧ t.eng.status = .errUsage :=
  ⟨_, rfl, rfl, rfl⟩

theorem witness_EachCommandReportsItsStatuses :
    ∃ t, exec (.encMsg 0 nonce0) keyedState = .next t ∧ t.eng.status = .ok :=
  ⟨_, congrArg Host.Outcome.next (encryptMessage_accepted Config.cipher _ _ nonce0 keyedState_phase (by decide)), rfl⟩

theorem witness_InitialisationIsIdempotent :
    (∃ key, Instr.initKey key0 = .initKey key) ∧ (∃ x, Instr.initMsg nonce0 = .initMsg x) ∧
    (∃ t, exec (.initMsg nonce0) keyedState = .next t) ∧ (∃ t, exec (.initKey key0) State.reset = .next t) ∧
    ∃ t, exec .wipe begunState = .next t := ⟨⟨_, rfl⟩, ⟨_, rfl⟩, ⟨_, rfl⟩, ⟨_, rfl⟩, ⟨_, rfl⟩⟩

theorem witness_KeyMaterialIsWrittenByKeyCommandsOnly :
    ∃ t, exec .finalTag begunState = .next t ∧ (∀ key, Instr.finalTag ≠ .initKey key) ∧ Instr.finalTag ≠ .wipe ∧
      Instr.finalTag ≠ .subkey := ⟨_, rfl, by simp, by simp, by simp⟩

/-- The chunk hypotheses: one byte and two bytes against three, up to the end of the counter's range. -/
theorem witness_AuthChunksAreOneChunk :
    (inPhase .streaming 4294967292 0).eng.phase = .streaming ∧
    (3 : Len).toNat = (1 : Len).toNat + (2 : Len).toNat ∧
    (inPhase .streaming 4294967292 0).eng.mac.cnt + (3 : Len).toNat < 2 ^ 32 ∧
    Memory.readBytes [(0, 1), (1, 2), (2, 3)] 0 3 =
      Memory.readBytes [(0, 1)] 0 1 ++ Memory.readBytes [(0, 2), (1, 3)] 0 2 := by decide

theorem witness_CryptChunksAreOneChunk :
    (inPhase .messageReady 0 0).eng.phase = .messageReady ∧
    (3 : Len).toNat = (1 : Len).toNat + (2 : Len).toNat ∧
    (inPhase .messageReady 0 0).eng.ctr.ccnt + (3 : Len).toNat < 2 ^ 32 ∧
    Memory.readBytes [(0, 1), (1, 2), (2, 3)] 0 3 =
      Memory.readBytes [(0, 1)] 0 1 ++ Memory.readBytes [(0, 2), (1, 3)] 0 2 := by decide

theorem witness_AuthAndCryptCommute :
    (inPhase .streaming 3 7).eng.phase = .streaming ∧ (inPhase .streaming 3 7).eng.mac.cnt + (5 : Len).toNat < 2 ^ 32 ∧
    (inPhase .streaming 3 7).eng.ctr.ccnt + (9 : Len).toNat < 2 ^ 32 := by decide

theorem witness_MessageReadyAndStreamingAreIndistinguishable :
    Instr.finalTag.hostIssuable = true ∧ sameButStreaming (inPhase .messageReady 2 2) (inPhase .streaming 2 2) :=
  ⟨rfl, .inr ⟨rfl, rfl, rfl⟩⟩

theorem streamingState_exists (k : Nat) :
    ∃ s : State, s.eng.phase = .streaming ∧ s.eng.mac = macAbsorb s.E (macStart 2) [0x55] ∧ s.eng.ctr.ccnt = k :=
  have h : State → ∃ s : State, s.eng.phase = .streaming ∧ s.eng.mac = macAbsorb s.E (macStart 2) [0x55] ∧
      s.eng.ctr.ccnt = k := fun s0 =>
    ⟨{ s0 with eng := { s0.eng with phase := .streaming, mac := macAbsorb s0.E (macStart 2) [0x55],
                                    ctr := ⟨0, 0, 1, k⟩ } }, rfl, rfl, rfl⟩
  h keyedState

/-- One byte authenticated, with the same number of bytes decrypted, and with none. -/
theorem witness_TagIsOmacOfTheAuthenticatedBytes :
    (∃ s : State, s.eng.phase = .streaming ∧ s.eng.mac = macAbsorb s.E (macStart 2) [0x55] ∧ s.eng.ctr.ccnt = 1) ∧
    (∃ s : State, s.eng.phase = .streaming ∧ s.eng.mac = macAbsorb s.E (macStart 2) [0x55] ∧ s.eng.ctr.ccnt = 0) :=
  ⟨streamingState_exists 1, streamingState_exists 0⟩

theorem witness_EncMsgIsTheFourCommandsAndTheTag :
    State.reset.eng.phase = .uninitialized ∧ keyedState.eng.phase ≠ .uninitialized ∧
    begunState.eng.phase ≠ .uninitialized :=
  ⟨rfl, keyedState_phase, by rw [begunState_phase]; simp⟩

theorem emptyMessage_phase (v : Tag) : (emptyMessage v).eng.phase ≠ .uninitialized := keyedState_phase

/-- Whether the four tag bytes of `emptyMessage v` are right. -/
theorem emptyMessage_agrees (v : Tag) : (∀ i < 4, (emptyMessage v).buf.read (0 + i) =
    byteOf (openedEngine Config.cipher 0 nonce0 (emptyMessage v)).tag i) ↔ ∀ i < 4, byteOf v i = 0 := by
  refine forall₂_congr fun i h => ?_
  rw [read_emptyMessage v i h]
  generalize byteOf (openedEngine Config.cipher 0 nonce0 (emptyMessage v)).tag i = b
  rw [← BitVec.xor_eq_zero_iff, BitVec.xor_assoc, BitVec.xor_comm (byteOf v i), ← BitVec.xor_assoc, BitVec.xor_self,
    BitVec.zero_xor]
  rfl

/-- The phase clauses; a buffer whose four tag bytes are right; a buffer with one of them wrong. -/
theorem witness_DecMsgIsTheFourCommandsAndTheComparison :
    State.reset.eng.phase = .uninitialized ∧
    (∀ v, (emptyMessage v).eng.phase ≠ .uninitialized ∧ ∃ s2 s3 s4,
      authenticate Config.cipher 0 (initMessage Config.cipher nonce0 (emptyMessage v)) = s2 ∧
      crypt Config.cipher 0 s2 = s3 ∧ finalizeTag Config.cipher s3 = s4 ∧
      ((∀ i < 4, (emptyMessage v).buf.read (0 + i) = byteOf s4.eng.tag i) ↔ ∀ i < 4, byteOf v i = 0)) ∧
    (∀ i < 4, byteOf (0 : Tag) i = 0) ∧ ¬ (∀ i < 4, byteOf (1 : Tag) i = 0) := by
  refine ⟨rfl, fun v => ⟨emptyMessage_phase v, ?_⟩, by decide, by decide⟩
  obtain ⟨s2, s3, s4, h2, h3, h4, -, -, h5, -⟩ :=
    decrypt_substeps Config.cipher (emptyMessage v) nonce0 0 (emptyMessage_phase v) (by decide)
  refine ⟨s2, s3, s4, h2, h3, h4, ?_⟩
  rw [h5]
  exact emptyMessage_agrees v

/-- Both statuses of an accepted `DEC_MSG` occur, and the refused one. -/
theorem witness_DecMsgReleasesPlaintextOnlyOnOk :
    (∃ t, exec (.decMsg 0 nonce0) (emptyMessage 0) = .next t ∧ t.eng.status = .ok) ∧
    (∃ t, exec (.decMsg 0 nonce0) (emptyMessage 1) = .next t ∧ t.eng.status = .errAuth) ∧
    (∃ t, exec (.decMsg 0 nonce0) State.reset = .next t ∧ t.eng.status ≠ .ok) := by
  have key : ∀ v, tagDifference (openedEngine Config.cipher 0 nonce0 (emptyMessage v)).tag
      ((emptyMessage v).buf.readBytes 0 4) = 0 ↔ ∀ i < 4, byteOf v i = 0 := by
    intro v
    rw [tagDifference_eq_zero _ _ (by simp), ← emptyMessage_agrees]
    refine forall₂_congr fun i hi => ?_
    rw [List.getD_eq_getElem _ _ (by simpa), Memory.readBytes_getElem]
  have dec := fun v => decryptMessage_accepted Config.cipher (emptyMessage v) 0 nonce0 (emptyMessage_phase v) (by decide)
  refine ⟨⟨_, congrArg Host.Outcome.next (dec 0), ?_⟩, ⟨_, congrArg Host.Outcome.next (dec 1), ?_⟩, ⟨_, rfl, ?_⟩⟩
  · dsimp only; rw [if_pos ((key 0).2 (by decide))]; rfl
  · dsimp only; rw [if_neg (mt (key 1).1 (by decide))]
  · decide

theorem witness_EncMsgIsCtrThenOmac : (inPhase .finalized 1 1).eng.phase ≠ .uninitialized ∧ (0 : Nat) < (1 : Len).toNat :=
  by decide

/-- The decrypting session is the encrypting one, with the buffer that `ENC_MSG` left. -/
theorem witness_DecMsgInvertsEncMsg : ∃ t u : State, keyedState.eng.phase ≠ .uninitialized ∧
    exec (.encMsg 1 nonce0) keyedState = .next t ∧ u.eng.phase ≠ .uninitialized ∧
    u.eng.ks = keyedState.eng.ks ∧ u.eng.padFull = keyedState.eng.padFull ∧
    u.eng.padPartial = keyedState.eng.padPartial ∧ (∀ a < (1 : Len).toNat + 4, u.buf.read a = t.buf.read a) := by
  have he := encryptMessage_accepted Config.cipher keyedState (1 : Len).toNat nonce0 keyedState_phase (by decide)
  refine ⟨_, _, keyedState_phase, congrArg Host.Outcome.next he, ?_, ?_, ?_, ?_, fun _ _ => rfl⟩
  all_goals simp [messageEnd]

/-- `keyedState` after `ENC_MSG` of one byte. -/
def sealedOne : State := encryptMessage Config.cipher (1 : Len).toNat nonce0 keyedState

/-- The same with the first tag byte altered. -/
theorem witness_AlteredTagIsDetected : ∃ t u : State, keyedState.eng.phase ≠ .uninitialized ∧
    exec (.encMsg 1 nonce0) keyedState = .next t ∧ u.eng.phase ≠ .uninitialized ∧
    u.eng.ks = keyedState.eng.ks ∧ u.eng.padFull = keyedState.eng.padFull ∧
    u.eng.padPartial = keyedState.eng.padPartial ∧ (∀ a < (1 : Len).toNat, u.buf.read a = t.buf.read a) ∧
    (∃ i < 4, u.buf.read ((1 : Len).toNat + i) ≠ t.buf.read ((1 : Len).toNat + i)) := by
  have he := encryptMessage_accepted Config.cipher keyedState (1 : Len).toNat nonce0 keyedState_phase (by decide)
  refine ⟨_, { sealedOne with buf := sealedOne.buf.write 1 (sealedOne.buf.read 1 ^^^ 1) }, keyedState_phase,
    rfl, ?_, ?_, ?_, ?_, ?_, 0, by decide, ?_⟩
  · change sealedOne.eng.phase ≠ _; rw [sealedOne, he]; simp [messageEnd]
  · change sealedOne.eng.ks = _; rw [sealedOne, he]; simp only [messageEnd]
  · change sealedOne.eng.padFull = _; rw [sealedOne, he]; simp only [messageEnd]
  · change sealedOne.eng.padPartial = _; rw [sealedOne, he]; simp only [messageEnd]
  · intro a ha
    change (sealedOne.buf.write 1 (sealedOne.buf.read 1 ^^^ 1)).read a = sealedOne.buf.read a
    rw [Memory.read_write, if_neg (by simp at ha; omega)]
  · change (sealedOne.buf.write 1 (sealedOne.buf.read 1 ^^^ 1)).read 1 ≠ sealedOne.buf.read 1
    rw [Memory.read_write, if_pos rfl]
    generalize sealedOne.buf.read 1 = b
    revert b; decide

/-- `AUTH`, `CRYPT`, `ENC_MSG` and `DEC_MSG` accepted in `begunState`, with any number of bytes. -/
theorem begunState_accepts (len : Len) :
    (∃ t, exec (.auth len) begunState = .next t ∧ t.eng.status = .ok) ∧
    (∃ t, exec (.crypt len) begunState = .next t ∧ t.eng.status = .ok) ∧
    (∃ t, exec (.encMsg len nonce0) begunState = .next t ∧ t.eng.status = .ok) ∧
    (∃ t, exec (.decMsg len nonce0) begunState = .next t ∧ t.eng.status ≠ .errUsage) := by
  have hp := begunState_phase
  have hn : begunState.eng.phase ≠ .uninitialized := by rw [hp]; simp
  obtain ⟨ha, hk⟩ := begunState_counts
  have hl := len.isLt
  refine ⟨⟨_, congrArg Host.Outcome.next (authenticate_accepted Config.cipher _ _ (.inl hp) (by omega)), rfl⟩,
    ⟨_, congrArg Host.Outcome.next (crypt_accepted Config.cipher _ _ (.inl hp) (by omega)), rfl⟩,
    ⟨_, congrArg Host.Outcome.next (encryptMessage_accepted Config.cipher _ _ nonce0 hn hl), rfl⟩,
    ⟨_, congrArg Host.Outcome.next (decryptMessage_accepted Config.cipher _ _ nonce0 hn hl), ?_⟩⟩
  dsimp only; split <;> simp [messageEnd]

/-- Each accepted command, with no bytes and with one. -/
theorem witness_CommandsAccessTheBufferInOrder :
    ((∃ t, exec (.auth 0) begunState = .next t ∧ t.eng.status = .ok) ∧
      (∃ t, exec (.crypt 0) begunState = .next t ∧ t.eng.status = .ok) ∧
      (∃ t, exec (.encMsg 0 nonce0) begunState = .next t ∧ t.eng.status = .ok) ∧
      (∃ t, exec (.decMsg 0 nonce0) begunState = .next t ∧ t.eng.status ≠ .errUsage)) ∧
    ((∃ t, exec (.auth 1) begunState = .next t ∧ t.eng.status = .ok) ∧
      (∃ t, exec (.crypt 1) begunState = .next t ∧ t.eng.status = .ok) ∧
      (∃ t, exec (.encMsg 1 nonce0) begunState = .next t ∧ t.eng.status = .ok) ∧
      (∃ t, exec (.decMsg 1 nonce0) begunState = .next t ∧ t.eng.status ≠ .errUsage)) ∧
    ∃ t, exec .wipe begunState = .next t := ⟨begunState_accepts 0, begunState_accepts 1, _, rfl⟩

/-- The invariant and each command's own premise together. -/
theorem witness_CommandsMakeTheStatedCipherCalls : begunState.Inv ∧
    (∃ t, exec (.initMsg nonce0) begunState = .next t ∧ t.eng.status = .ok) ∧
    (∃ t, exec (.auth 17) begunState = .next t ∧ t.eng.status = .ok) ∧
    (∃ t, exec (.crypt 17) begunState = .next t ∧ t.eng.status = .ok) ∧
    (∃ t, exec (.encMsg 17 nonce0) begunState = .next t ∧ t.eng.status = .ok) ∧
    (∃ t, exec (.decMsg 17 nonce0) begunState = .next t ∧ t.eng.status ≠ .errUsage) := by
  refine ⟨begunState_inv, ⟨_, congrArg Host.Outcome.next (initMessage_accepted Config.cipher _ nonce0 ?_), rfl⟩,
    begunState_accepts 17⟩
  rw [begunState_phase]; simp

/-- A legal and an illegal descriptor, an array of bytes, an accepted command, and a buffer of its length. -/
theorem witness_CommandBuffersHaveTheirLength :
    decode [0x08] = .command .wipe ∧ decode [0x00] = .illegal (.noInstruction 0x00) ∧
    ([0x00, 0xFF] : List Byte).length = 2 ∧ (Instr.crypt 2).hostIssuable = true ∧
    (∃ t, exec (.crypt 2) { begunState with buf := [(1, 0xFF)] } = .next t) ∧
    ∀ c ∈ ([(1, 0xFF)] : Memory), c.1 < bufferLength (.crypt 2) :=
  ⟨by decide, by decide, rfl, rfl, exec_next _ _, by decide⟩

end Sys2Proof.Tests
end

section
/-! The step that serves a platform reset (70_reset_and_hazards.md), and what it leaves in the state (10_state.md). -/

namespace Sys2Proof.Machine

/-- The one branch of `step` that a waiting platform reset takes (R260, R265). -/
theorem step_of_pending_reset {s : State} {rest : List HostInput} (h : s.pending = .reset :: rest) :
    step s = .next (platformReset (consumeInput rest s)) := by
  rw [step, h]

/-- Settles O7: the reset values are read off the definition (R42), and the step that serves a reset gives the whole
engine those values, keeps the buffer (R264) and consumes the reset alone. -/
theorem resetGivesEveryElementItsValue : Obligations.ResetGivesEveryElementItsValue := by
  refine ⟨by decide, fun s rest h => ⟨platformReset (consumeInput rest s), step_of_pending_reset h, ?_, ?_, ?_⟩⟩
  · exact platformReset_eng _
  · rw [platformReset_buf, consumeInput_buf]
  · rw [platformReset_pending, consumeInput_pending]

end Sys2Proof.Machine
end

section
/-! What the decoder answers on every byte string (R93, R100, R103), and the descriptors that instructions have. -/

namespace Sys2Proof

/-- The eight class 0 opcodes are those from 0x01 to 0x08 (R92). -/
theorem sessionOpcode_iff (op : Byte) : 1 ≤ op.toNat ∧ op.toNat ≤ 8 ↔
    op = 0x01 ∨ op = 0x02 ∨ op = 0x03 ∨ op = 0x04 ∨ op = 0x05 ∨ op = 0x06 ∨ op = 0x07 ∨ op = 0x08 := by
  bv_omega

/-- The length rule of R93 as one table of the eight class 0 opcodes. -/
theorem descriptorLength_eq_some_iff (op : Byte) (n : Nat) : descriptorLength op = some n ↔
    1 ≤ op.toNat ∧ op.toNat ≤ 8 ∧ n = [17, 8, 5, 5, 1, 12, 12, 1].getD (op.toNat - 1) 0 := by
  by_cases h : 1 ≤ op.toNat ∧ op.toNat ≤ 8
  · rcases (sessionOpcode_iff op).1 h with rfl | rfl | rfl | rfl | rfl | rfl | rfl | rfl <;>
      simp [descriptorLength, eq_comm]
  · have hnone : descriptorLength op = none := by
      rw [sessionOpcode_iff] at h
      simp only [not_or] at h
      simp only [descriptorLength, h, if_false]
    rw [hnone]
    exact iff_of_false (by simp) fun ⟨h1, h8, _⟩ => h ⟨h1, h8⟩

/-- R103 in two cases: the descriptor has the length that its opcode decides and is a command, or it is illegal. -/
theorem decode_cons_cases (op : Byte) (rest : List Byte) :
    ((∃ i, decode (op :: rest) = .command i) ∧ descriptorLength op = some (rest.length + 1)) ∨
    (decode (op :: rest) = .illegal (illegalReason op (rest.length + 1)) ∧
      descriptorLength op ≠ some (rest.length + 1)) := by
  rw [decode]
  split_ifs
  case neg =>
    refine .inr ⟨rfl, fun h => ?_⟩
    obtain ⟨hlo, hhi, -⟩ := (descriptorLength_eq_some_iff _ _).1 h
    rcases (sessionOpcode_iff op).1 ⟨hlo, hhi⟩ with rfl | rfl | rfl | rfl | rfl | rfl | rfl | rfl <;>
      simp_all [descriptorLength]
  all_goals exact .inl ⟨⟨_, rfl⟩, by simp [descriptorLength, *]⟩

/-- Which descriptors are illegal (R100): exactly those without the length that their first byte decides. -/
theorem exists_decode_illegal_iff (d : List Byte) : (∃ why, decode d = .illegal why) ↔
    ¬ ∃ op rest, d = op :: rest ∧ descriptorLength op = some d.length := by
  cases d with
  | nil => exact iff_of_true ⟨_, rfl⟩ (by simp)
  | cons op rest =>
    rcases decode_cons_cases op rest with ⟨⟨i, hd⟩, hlen⟩ | ⟨hd, hlen⟩ <;> simp [hd, hlen]

theorem decode_unitOpcode (op : Byte) (rest : List Byte) (hlo : 0x10 ≤ op.toNat) (hhi : op.toNat ≤ 0x17) :
    decode (op :: rest) = .illegal (.unitOperation op) := by
  have hnone : descriptorLength op = none := by
    rw [Option.eq_none_iff_forall_ne_some]
    intro n hn
    obtain ⟨-, h8, -⟩ := (descriptorLength_eq_some_iff _ _).1 hn
    omega
  rcases decode_cons_cases op rest with ⟨-, hlen⟩ | ⟨hd, -⟩
  · simp [hnone] at hlen
  · rw [hd, illegalReason, hnone]
    simp [hlo, hhi]

/-- The per-constructor shapes of Laws/PerInstr.lean, for every instruction. -/
theorem descriptorShape (i : Instr) : Laws.DescriptorShape.Statement i :=
  match i with
  | .initKey key => Laws.DescriptorShape.initKey key
  | .initMsg nonce => Laws.DescriptorShape.initMsg nonce
  | .auth len => Laws.DescriptorShape.auth len
  | .crypt len => Laws.DescriptorShape.crypt len
  | .finalTag => Laws.DescriptorShape.finalTag
  | .encMsg len nonce => Laws.DescriptorShape.encMsg len nonce
  | .decMsg len nonce => Laws.DescriptorShape.decMsg len nonce
  | .wipe => Laws.DescriptorShape.wipe
  | .gfDbl b => Laws.DescriptorShape.gfDbl b
  | .subkey => Laws.DescriptorShape.subkey
  | .macStart tweak => Laws.DescriptorShape.macStart tweak
  | .macAbsorb m d => Laws.DescriptorShape.macAbsorb m d
  | .macFinish m => Laws.DescriptorShape.macFinish m
  | .ctrSeed b => Laws.DescriptorShape.ctrSeed b
  | .ctrApply d => Laws.DescriptorShape.ctrApply d
  | .ctrInc b => Laws.DescriptorShape.ctrInc b

theorem encode_eq_none_iff (i : Instr) : encode i = none ↔ i.hostIssuable = false := by
  obtain ⟨-, hsome, -⟩ := descriptorShape i
  rw [← hsome, Option.isSome_eq_false_iff, Option.isNone_iff_eq_none]

/-- The class of an instruction is read off its opcode byte (R91, R92). -/
theorem hostIssuable_eq_false_iff (i : Instr) :
    i.hostIssuable = false ↔ 0x10 ≤ i.opcode.toNat ∧ i.opcode.toNat ≤ 0x17 := by
  cases i <;> simp [Instr.hostIssuable, Instr.opcode]

end Sys2Proof

namespace Sys2Proof.Machine

theorem operandLength_of_illegal {d : List Byte} {why : IllegalReason} (h : decode d = .illegal why) :
    operandLength d = 0 := by
  rw [operandLength, h]

/-- Without a buffer, taking a command's input only consumes it (log 19). -/
theorem takeInput_of_no_buffer {n : Nat} (h : n = 0) (rest : List HostInput) (brought : Buffer n) (s : State) :
    takeInput rest brought s = consumeInput rest s := by
  rw [takeInput, handOver, if_pos h]

/-- The one branch of `step` that a waiting illegal descriptor takes (R100, R240): no buffer comes with it. -/
theorem step_of_pending_illegal {s : State} {d : List Byte} {brought : Buffer (operandLength d)}
    {rest : List HostInput} {why : IllegalReason} (hp : s.pending = .command d brought :: rest)
    (hd : decode d = .illegal why) : step s = .next (illegalDescriptor (consumeInput rest s)) := by
  rw [← takeInput_of_no_buffer (operandLength_of_illegal hd) rest brought s]
  simp only [step, hp, hd]

/-- Settles O3: by the two cases of the decoder, with R93's lengths as a table; the step on an illegal descriptor is
`fail ERR_ILLEGAL` of the state whose input is consumed. -/
theorem illegalDescriptorsFailWithErrIllegal : Obligations.IllegalDescriptorsFailWithErrIllegal := by
  refine ⟨fun d => ?_, fun s d brought rest why hp hd => ?_, rfl⟩
  · simp only [exists_decode_illegal_iff, descriptorLength_eq_some_iff]
  · rw [step_of_pending_illegal hp hd]
    rfl

/-- Settles O4: a class 1 opcode decides no length, so its descriptor is illegal whatever follows; the unit operations
are the instructions with those opcodes, and none has a descriptor. -/
theorem unitOperationsAreNotHostIssuable : Obligations.UnitOperationsAreNotHostIssuable :=
  ⟨decode_unitOpcode, fun i h => ⟨(encode_eq_none_iff i).2 h, (hostIssuable_eq_false_iff i).1 h⟩⟩

end Sys2Proof.Machine
end

section
/-! The Galois-field doubler (R120) in its integer form and byte by byte, and the padding pair it derives (R122). -/

namespace Sys2Proof

/-- The top bit of a block is bit 7 of its byte 0 (R9). -/
theorem msb_iff_byteOf_zero (b : Block) : b.msb = true ↔ 128 ≤ (byteOf b 0).toNat := by
  rw [BitVec.msb_eq_decide, decide_eq_true_iff, byteOf_toNat]
  omega

/-- Below byte 15, a block shifted left by one bit takes the top bit of the next byte in (R120). -/
theorem byteOf_shiftLeft_one_toNat (b : Block) {i : Nat} (hi : i < 15) : (byteOf (b <<< 1) i).toNat =
    (byteOf b i).toNat * 2 % 256 + (byteOf b (i + 1)).toNat / 128 := by
  have hbyte : 2 ^ (128 - 8 * (i + 1)) = 2 ^ (128 - 8 * (i + 1 + 1)) * 256 := by
    rw [show 256 = 2 ^ 8 from rfl, ← pow_add]; congr 1; omega
  have hblock : 2 ^ 128 = 2 ^ (128 - 8 * (i + 1)) * 2 ^ (8 * (i + 1)) := by
    rw [← pow_add]; congr 1; omega
  have hdvd : 256 ∣ 2 ^ (8 * (i + 1)) := pow_dvd_pow 2 (show 8 ≤ 8 * (i + 1) by omega)
  have hshift (x p : Nat) : x * 2 / (p * 256) = x / p / 128 := by
    rw [Nat.div_div_eq_div_mul, show p * 256 = p * 128 * 2 by ring, Nat.mul_div_mul_right _ _ (by decide)]
  rw [byteOf_toNat, byteOf_toNat, byteOf_toNat, BitVec.toNat_shiftLeft, Nat.shiftLeft_eq, pow_one, hblock,
    Nat.mod_mul_right_div_self, Nat.mod_mod_of_dvd _ hdvd, hbyte, hshift, ← Nat.div_div_eq_div_mul]
  omega

/-- Byte 15 of a block shifted left by one bit takes a zero bit in (R120). -/
theorem byteOf_fifteen_shiftLeft_one_toNat (b : Block) :
    (byteOf (b <<< 1) 15).toNat = (byteOf b 15).toNat * 2 % 256 := by
  rw [byteOf_toNat, byteOf_toNat, BitVec.toNat_shiftLeft, Nat.shiftLeft_eq]
  omega

/-- The reduction constant stands in byte 15 alone (R6). -/
theorem byteOf_gfReduce : ∀ i < 16, byteOf Config.gfReduce i = if i = 15 then 0x87 else 0 := by
  decide

end Sys2Proof

namespace Sys2Proof.Machine

theorem exec_gfDbl (b : Block) (s : State) : exec (.gfDbl b) s = .next (s.returns (.block (dbl b)) []) := rfl

theorem exec_subkey (s : State) : exec .subkey s = .next (subkeyUnit Config.cipher s) := rfl

/-- Doubling is a shift, then the XOR of a block that the top bit chooses (R120). -/
theorem dbl_eq_xor (b : Block) : dbl b = (b <<< 1) ^^^ (if b.msb then Config.gfReduce else 0) := by
  rw [dbl]
  split
  · rfl
  · exact BitVec.xor_zero.symm

theorem dbl_toNat (b : Block) :
    (dbl b).toNat = (2 * b.toNat % 2 ^ 128) ^^^ (if 2 ^ 127 ≤ b.toNat then 0x87 else 0) := by
  have htop : b.msb = true ↔ 2 ^ 127 ≤ b.toNat := by rw [BitVec.msb_eq_decide, decide_eq_true_iff]
  rw [dbl_eq_xor, BitVec.toNat_xor, BitVec.toNat_shiftLeft, Nat.shiftLeft_eq, pow_one, Nat.mul_comm]
  simp only [htop, apply_ite BitVec.toNat]
  rfl

/-- Each byte of a doubled block: the reduction meets byte 15 alone. -/
theorem byteOf_dbl (b : Block) {i : Nat} (hi : i < 16) :
    byteOf (dbl b) i = byteOf (b <<< 1) i ^^^ (if b.msb = true ∧ i = 15 then 0x87 else 0) := by
  rw [dbl_eq_xor, byteOf_xor, apply_ite (byteOf · i), byteOf_gfReduce i hi, byteOf_zero, ite_and]

theorem byteOf_dbl_toNat (b : Block) {i : Nat} (hi : i < 15) : (byteOf (dbl b) i).toNat =
    (byteOf b i).toNat * 2 % 256 + (byteOf b (i + 1)).toNat / 128 := by
  rw [byteOf_dbl b (by omega), if_neg (by omega), ← byteOf_shiftLeft_one_toNat b hi]
  exact congrArg BitVec.toNat BitVec.xor_zero

theorem byteOf_fifteen_dbl_toNat (b : Block) : (byteOf (dbl b) 15).toNat =
    ((byteOf b 15).toNat * 2 % 256) ^^^ (if 128 ≤ (byteOf b 0).toNat then 0x87 else 0) := by
  rw [byteOf_dbl b (by decide), BitVec.toNat_xor, byteOf_fifteen_shiftLeft_one_toNat]
  simp only [and_true, msb_iff_byteOf_zero, apply_ite BitVec.toNat]
  rfl

/-- Settles O12: the block returned is `dbl b`, a shift and the XOR of a constant that the top bit chooses; both forms
are read off that, and the bytes below 15 never meet the constant. -/
theorem gfDblDoublesTheBlock : Obligations.GfDblDoublesTheBlock := fun b s =>
  ⟨dbl b, exec_gfDbl b s, dbl_toNat b, fun _ hi => byteOf_dbl_toNat b hi, byteOf_fifteen_dbl_toNat b⟩

/-- Settles O14: `SUBKEY` is `deriveSubkeys` on the engine, which names the two registers it writes (R122). -/
theorem subkeyWritesThePaddingPair : Obligations.SubkeyWritesThePaddingPair := by
  intro s
  rw [exec_subkey, subkeyUnit, deriveSubkeys]
  rfl

end Sys2Proof.Machine
end

section
/-! The CBC-MAC / OMAC accumulator (R136, R138, R142): the tweak block, one absorbed byte and the padded copy, byte by
byte. -/

namespace Sys2Proof

/-- A byte XORed into a block, as an XOR of every byte: with the value at its index and with zero elsewhere (R11). -/
theorem byteOf_xorByteAt_eq_xor (b : Block) (v : Byte) {i j : Nat} (hi : i < 16) (hj : j < 16) :
    byteOf (xorByteAt b i v) j = byteOf b j ^^^ (if j = i then v else 0) := by
  rw [byteOf_xorByteAt b i j v hi hj]
  by_cases h : j = i
  · rw [if_pos h.symm, if_pos h]
  · rw [if_neg (Ne.symm h), if_neg h]
    exact BitVec.xor_zero.symm

end Sys2Proof

namespace Sys2Proof.Machine

theorem exec_macStart (t : Byte) (s : State) :
    exec (.macStart t) s = .next (s.returns (.accumulator (macStart t)) []) := rfl

theorem exec_macAbsorb (m : Accumulator) (d : List Byte) (s : State) :
    exec (.macAbsorb m d) s = .next (macAbsorbUnit Config.cipher m d s) := rfl

theorem exec_macFinish (m : Accumulator) (s : State) :
    exec (.macFinish m) s = .next (macFinishUnit Config.cipher m s) := rfl

/-- Both cases of the tweak block are one form: the tweak XORed into the last byte of a zero block (R136). -/
theorem macStart_acc (t : Byte) : (macStart t).acc = xorByteAt zeroBlock 15 t := by
  rw [macStart]
  split
  · next ht => rw [ht]; rfl
  · simp [xorByteAt]

theorem byteOf_macStart_acc (t : Byte) {j : Nat} (hj : j < 16) :
    byteOf (macStart t).acc j = if j = 15 then t else 0 := by
  rw [macStart_acc, byteOf_xorByteAt_eq_xor _ _ (by decide) hj, byteOf_zero]
  exact BitVec.zero_xor

/-- Settles O15: the tweak stands in byte 15 of the returned block, and every other byte is zero (R136). -/
theorem macStartReturnsTheTweakBlock : Obligations.MacStartReturnsTheTweakBlock := by
  refine fun t s => ⟨(macStart t).acc, exec_macStart t s, fun i hi => ?_, ?_⟩
  · rw [byteOf_macStart_acc t (by omega), if_neg (by omega)]
  · rw [byteOf_macStart_acc t (by decide), if_pos rfl]

theorem macChain_acc (E : Block → Block) (m : Accumulator) :
    (macChain E m).acc = if m.pos.val = 16 then E m.acc else m.acc := by
  rw [macChain, apply_ite Accumulator.acc]

theorem macChain_pos (E : Block → Block) (m : Accumulator) :
    (macChain E m).pos.val = if m.pos.val = 16 then 0 else m.pos.val := by
  rw [macChain, apply_ite (fun r : Accumulator => r.pos.val)]
  rfl

/-- One absorbed byte meets the chained block at its fill position, and no other byte of it (R138). -/
theorem byteOf_macByte_acc (E : Block → Block) (m : Accumulator) (b : Byte) {j : Nat} (hj : j < 16) :
    byteOf (macByte E m b).acc j = if j = (macChain E m).pos.val then byteOf (macChain E m).acc j ^^^ b
      else byteOf (macChain E m).acc j := by
  rw [macByte, byteOf_xorByteAt _ _ _ _ (macChain_pos_lt E m) hj]
  simp only [eq_comm]

/-- Settles O16: the accumulator after the first byte is `macByte`, from which the absorption goes on; the chaining
says which block the byte meets, and where (R138). -/
theorem macAbsorbTakesOneByteAtATime : Obligations.MacAbsorbTakesOneByteAtATime := by
  intro m s
  refine ⟨exec_macAbsorb m [] s, fun b d => ⟨macByte s.E m b, fun j hj => ?_, macByte_pos s.E m b,
    macByte_cnt s.E m b, macAbsorb s.E m (b :: d), encryptEvents (macAbsorbInputs s.E m (b :: d)),
    encryptEvents (macAbsorbInputs s.E (macByte s.E m b) d), exec_macAbsorb m (b :: d) s, ?_⟩⟩
  · rw [byteOf_macByte_acc s.E m b hj, macChain_acc, macChain_pos]
  · rw [macAbsorb_cons]
    exact exec_macAbsorb (macByte s.E m b) d s

/-- A partial block is padded with 0x80 after its last byte, and with `PAD_PARTIAL` throughout (R142). -/
theorem byteOf_macFinalBlock_of_partial (padFull padPartial : Block) {m : Accumulator} (hpos : m.pos.val < 16)
    {j : Nat} (hj : j < 16) : byteOf (macFinalBlock padFull padPartial m) j =
      byteOf m.acc j ^^^ (if j = m.pos.val then 0x80 else 0) ^^^ byteOf padPartial j := by
  rw [macFinalBlock, if_pos hpos, byteOf_xor, byteOf_xorByteAt_eq_xor _ _ hpos hj]

/-- A full block is padded with `PAD_FULL` (R142). -/
theorem macFinalBlock_of_full (padFull padPartial : Block) {m : Accumulator} (hpos : m.pos.val = 16) :
    macFinalBlock padFull padPartial m = m.acc ^^^ padFull := by
  rw [macFinalBlock, if_neg (by omega)]

/-- Settles O17: the block encrypted is `macFinalBlock` under the engine's pads, in its two cases (R142). -/
theorem macFinishPadsAndEncrypts : Obligations.MacFinishPadsAndEncrypts := fun m s =>
  ⟨macFinalBlock s.eng.padFull s.eng.padPartial m, exec_macFinish m s,
    fun hpos _ hj => byteOf_macFinalBlock_of_partial _ _ hpos hj, macFinalBlock_of_full _ _⟩

end Sys2Proof.Machine
end

section
/-! The CTR engine (R156, R158, R159): the increment byte by byte, the seed, and one byte of an apply. -/

namespace Sys2Proof

/-- A number cut to a block keeps its low 16 digits in base 256, digit `15 - i` as byte `i` (R9). -/
theorem byteOf_ofNat_toNat (x : Nat) {i : Nat} (hi : i < 16) :
    (byteOf (BitVec.ofNat 128 x) i).toNat = x / 256 ^ (15 - i) % 256 := by
  have hshift : 2 ^ (128 - 8 * (i + 1)) = 256 ^ (15 - i) := by
    rw [show 256 = 2 ^ 8 from rfl, ← pow_mul]; congr 1; omega
  have hblock : 2 ^ 128 = 256 ^ (15 - i) * 256 ^ (i + 1) := by
    rw [← pow_add, show 15 - i + (i + 1) = 16 by omega]; rfl
  rw [byteOf_toNat, BitVec.toNat_ofNat, hshift, hblock, Nat.mod_mul_right_div_self,
    Nat.mod_mod_of_dvd _ (dvd_pow_self 256 i.succ_ne_zero)]

theorem byteOf_block_toNat (b : Block) {i : Nat} (hi : i < 16) :
    (byteOf b i).toNat = b.toNat / 256 ^ (15 - i) % 256 := by
  simpa using byteOf_ofNat_toNat b.toNat hi

/-- Adding 1 carries out of the lowest `k` bytes exactly when each of them is 0xFF. -/
theorem pow_dvd_succ_iff_low_bytes (x k : Nat) : 256 ^ k ∣ x + 1 ↔ ∀ m < k, x / 256 ^ m % 256 = 255 := by
  induction k with
  | zero => simp
  | succ k ih =>
    have hstep (hk : 256 ^ k ∣ x + 1) : 256 ^ (k + 1) ∣ x + 1 ↔ x / 256 ^ k % 256 = 255 := by
      rw [pow_succ, ← Nat.dvd_div_iff_mul_dvd hk, Nat.succ_div_of_dvd hk]
      omega
    rw [Nat.forall_lt_succ_right, ← ih]
    exact ⟨fun h => have hk := dvd_trans (pow_dvd_pow 256 k.le_succ) h; ⟨hk, (hstep hk).1 h⟩,
      fun ⟨hk, hbyte⟩ => (hstep hk).2 hbyte⟩

/-- The same for a block: the bytes below byte `i` are those after it (R9). -/
theorem pow_dvd_toNat_succ_iff (b : Block) {i : Nat} (hi : i < 16) :
    256 ^ (15 - i) ∣ b.toNat + 1 ↔ ∀ j, i < j → j < 16 → byteOf b j = 0xFF := by
  have hbyte {j : Nat} (hj : j < 16) : byteOf b j = 0xFF ↔ b.toNat / 256 ^ (15 - j) % 256 = 255 := by
    rw [← byteOf_block_toNat b hj, ← BitVec.toNat_inj]
    rfl
  rw [pow_dvd_succ_iff_low_bytes]
  constructor
  · intro h j hij hj
    exact (hbyte hj).2 (h (15 - j) (by omega))
  · intro h m hm
    have := (hbyte (show 15 - m < 16 by omega)).1 (h (15 - m) (by omega) (by omega))
    rwa [show 15 - (15 - m) = m by omega] at this

end Sys2Proof

namespace Sys2Proof.Machine

theorem exec_ctrInc (b : Block) (s : State) : exec (.ctrInc b) s = .next (s.returns (.block (inc b)) []) := rfl

theorem exec_ctrSeed (b : Block) (s : State) : exec (.ctrSeed b) s =
    .next ({ s with eng := { s.eng with ctr := ctrSeed b } }.returns .none []) := rfl

theorem exec_ctrApply (d : List Byte) (s : State) :
    exec (.ctrApply d) s = .next (ctrApplyUnit Config.cipher d s) := rfl

theorem inc_eq_ofNat (b : Block) : inc b = BitVec.ofNat 128 (b.toNat + 1) := by
  rw [inc, BitVec.ofNat_add, BitVec.ofNat_toNat, BitVec.setWidth_eq]
  rfl

theorem inc_toNat (b : Block) : (inc b).toNat = (b.toNat + 1) % 2 ^ 128 := by
  rw [inc_eq_ofNat, BitVec.toNat_ofNat]

/-- Each byte of an incremented block takes the carry out of the bytes after it (R156). -/
theorem byteOf_inc (b : Block) {i : Nat} (hi : i < 16) :
    byteOf (inc b) i = byteOf b i + (if 256 ^ (15 - i) ∣ b.toNat + 1 then 1 else 0) := by
  apply BitVec.eq_of_toNat_eq
  rw [inc_eq_ofNat, byteOf_ofNat_toNat _ hi, Nat.succ_div, BitVec.toNat_add, byteOf_block_toNat b hi]
  split <;> simp

/-- Settles O19: a byte takes the carry exactly when `256 ^ (15 - i)` divides the successor, which says that every
byte after it is 0xFF (R156). -/
theorem ctrIncCarriesThroughAllBytes : Obligations.CtrIncCarriesThroughAllBytes := by
  refine fun b s => ⟨inc b, exec_ctrInc b s, inc_toNat b, fun i hi hfull => ?_, fun i hi ⟨j, hij, hj, hne⟩ => ?_⟩
  · rw [byteOf_inc b hi, if_pos ((pow_dvd_toNat_succ_iff b hi).2 hfull)]
  · rw [byteOf_inc b hi, if_neg fun hdvd => hne ((pow_dvd_toNat_succ_iff b hi).1 hdvd j hij hj)]
    exact BitVec.add_zero _

/-- Settles O20: `CTR_SEED` writes the registers that `ctrSeed` names (R158). -/
theorem ctrSeedWritesTheCtrRegisters : Obligations.CtrSeedWritesTheCtrRegisters := exec_ctrSeed

theorem ctrRefresh_of_stale (E : Block → Block) {r : CtrState} (h : 16 ≤ r.ksPos.val ∨ r.ccnt = 0) :
    ctrRefresh E r = { ctr := inc r.ctr, ksCache := E r.ctr, ksPos := 0, ccnt := r.ccnt } := by
  obtain ⟨-, hfresh⟩ | ⟨hkept, -⟩ := ctrRefresh_cases E r
  · exact hfresh
  · omega

theorem ctrRefresh_of_not_stale (E : Block → Block) {r : CtrState} (h : ¬ (16 ≤ r.ksPos.val ∨ r.ccnt = 0)) :
    ctrRefresh E r = r := by
  obtain ⟨hstale, -⟩ | ⟨-, hkept⟩ := ctrRefresh_cases E r
  · omega
  · exact hkept

/-- Settles O21: the refreshed registers give the first keystream byte, and the apply of the other bytes goes on from
`ctrNext`, which advances them (R159). -/
theorem ctrApplyTakesOneByteAtATime : Obligations.CtrApplyTakesOneByteAtATime := fun s =>
  ⟨exec_ctrApply [] s, fun b d =>
    ⟨ctrRefresh s.E s.eng.ctr, ctrRefresh_pos_lt s.E s.eng.ctr, ctrRefresh_of_stale s.E, ctrRefresh_of_not_stale s.E,
      ctrApplyUnit Config.cipher (b :: d) s, ctrOutput s.E (ctrNext s.E s.eng.ctr) d, _, _,
      exec_ctrApply (b :: d) s,
      exec_ctrApply d { s with eng := { s.eng with ctr := ctrNext s.E s.eng.ctr } }⟩⟩

end Sys2Proof.Machine
end

section
/-! The session controller's streaming commands (R176 to R181, R191): the nonce MAC in closed form, and what each
command does to the whole state. -/

namespace Sys2Proof

/-- The bytes of two arrays end to end: those of the first, then those of the second (R9). -/
theorem byteOf_append {v w k l : Nat} (hv : v = 8 * k) (hw : w = 8 * l) (x : BitVec v) (y : BitVec w) {i : Nat}
    (hi : i < k + l) : byteOf (x ++ y) i = if i < k then byteOf x i else byteOf y (i - k) := by
  rw [byteOf]
  split
  · rw [BitVec.extractLsb'_append_eq_of_le (by omega), byteOf]
    congr 1
    omega
  · rw [BitVec.extractLsb'_append_eq_of_add_le (by omega), byteOf]
    congr 1
    omega

/-- The padded nonce block: the seven nonce bytes, the padding byte, and zeros (R177). -/
theorem byteOf_paddedNonce (x : Nonce) {i : Nat} (hi : i < 16) :
    byteOf (x ++ 0x80#8 ++ 0#64 : Block) i = if i < 7 then byteOf x i else if i = 7 then 0x80 else 0 := by
  rw [byteOf_append (k := 8) (l := 8) rfl rfl (x ++ 0x80#8) 0#64 (by omega)]
  split
  · next h8 =>
    rw [byteOf_append (k := 7) (l := 1) rfl rfl x 0x80#8 h8]
    split
    · rfl
    · next h7 =>
      obtain rfl : i = 7 := by omega
      rfl
  · next h8 =>
    rw [if_neg (by omega), if_neg (by omega)]
    exact byteOf_zero _

/-- `T[0..4)` holds the block's first four bytes (R10). -/
theorem byteOf_firstFour (b : Block) {i : Nat} (hi : i < 4) : byteOf (firstFour b) i = byteOf b i := by
  ext j hj
  have hwithin : 32 - 8 * (i + 1) + j < 32 := by omega
  have hbit : 96 + (32 - 8 * (i + 1) + j) = 128 - 8 * (i + 1) + j := by omega
  simp only [byteOf, firstFour, BitVec.getElem_extractLsb', BitVec.getLsbD_extractLsb', hwithin, decide_true,
    Bool.true_and, hbit]

end Sys2Proof

namespace Sys2Proof.Machine

theorem exec_initKey (key : Key) (s : State) :
    exec (.initKey key) s = .next (initWithKey Config.cipher key s) := rfl

theorem exec_initMsg (nonce : Nonce) (s : State) :
    exec (.initMsg nonce) s = .next (initMessage Config.cipher nonce s) := rfl

theorem exec_auth (len : Len) (s : State) :
    exec (.auth len) s = .next (authenticate Config.cipher len.toNat s) := rfl

theorem exec_crypt (len : Len) (s : State) :
    exec (.crypt len) s = .next (crypt Config.cipher len.toNat s) := rfl

theorem exec_finalTag (s : State) : exec .finalTag s = .next (finalizeTag Config.cipher s) := rfl

theorem exec_wipe (s : State) : exec .wipe s = .next (wipeSession s) := rfl

section
variable (E : Block → Block)

theorem macChain_of_not_full {m : Accumulator} (h : m.pos.val ≠ 16) : macChain E m = m := if_neg h

theorem macChain_idem (m : Accumulator) : macChain E (macChain E m) = macChain E m :=
  macChain_of_not_full E (macChain_pos_lt E m).ne

/-- The chaining may be taken out of the first absorbed byte (R138, R139). -/
theorem macAbsorb_macChain (m : Accumulator) {d : List Byte} (hd : d ≠ []) :
    macAbsorb E (macChain E m) d = macAbsorb E m d := by
  cases d with
  | nil => exact absurd rfl hd
  | cons b d => rw [macAbsorb_cons, macAbsorb_cons, macByte, macByte, macChain_idem]

/-- Absorbing into a full accumulator gives its block to the cipher first (R81, R138). -/
theorem macAbsorbInputs_of_full {m : Accumulator} (hm : m.pos.val = 16) {d : List Byte} (hd : d ≠ []) :
    macAbsorbInputs E m d = m.acc :: macAbsorbInputs E (macChain E m) d := by
  cases d with
  | nil => exact absurd rfl hd
  | cons b d =>
    rw [macAbsorbInputs, macAbsorbInputs, if_pos hm, if_neg (macChain_pos_lt E m).ne, macByte, macByte, macChain_idem]
    rfl

/-- A byte absorbed where there is room for it moves the fill position by one. -/
theorem macByte_pos_of_room {m : Accumulator} (h : m.pos.val < 16) (b : Byte) :
    (macByte E m b).pos.val = m.pos.val + 1 := by
  rw [macByte_pos, if_neg h.ne]

/-- Bytes that fit into the block being filled move the fill position by their number. -/
theorem macAbsorb_pos_of_room {m : Accumulator} {d : List Byte} (h : m.pos.val + d.length ≤ 16) :
    (macAbsorb E m d).pos.val = m.pos.val + d.length := by
  induction d generalizing m with
  | nil => rfl
  | cons b d ih =>
    rw [List.length_cons] at h ⊢
    have hpos := macByte_pos_of_room E (show m.pos.val < 16 by omega) b
    rw [macAbsorb_cons, ih (by omega), hpos]
    omega

/-- Bytes that fit into the block being filled make no cipher call (R81, R138). -/
theorem macAbsorbInputs_of_room {m : Accumulator} {d : List Byte} (h : m.pos.val + d.length ≤ 16) :
    macAbsorbInputs E m d = [] := by
  induction d generalizing m with
  | nil => rfl
  | cons b d ih =>
    rw [List.length_cons] at h
    have hpos := macByte_pos_of_room E (show m.pos.val < 16 by omega) b
    rw [macAbsorbInputs, if_neg (by omega), ih (by omega)]
    rfl

/-- Bytes that fit into the block being filled are XORed into it from the fill position on (R138). -/
theorem byteOf_macAbsorb_acc_of_room {m : Accumulator} {d : List Byte} (h : m.pos.val + d.length ≤ 16) {j : Nat}
    (hj : j < 16) : byteOf (macAbsorb E m d).acc j =
      byteOf m.acc j ^^^ (if m.pos.val ≤ j then d.getD (j - m.pos.val) 0 else 0) := by
  induction d generalizing m with
  | nil => simp
  | cons b d ih =>
    rw [List.length_cons] at h
    have hroom : m.pos.val < 16 := by omega
    have hpos := macByte_pos_of_room E hroom b
    rw [macAbsorb_cons, ih (by omega), hpos, byteOf_macByte_acc E m b hj, macChain_of_not_full E hroom.ne]
    obtain hlt | heq | hgt := lt_trichotomy j m.pos.val
    · rw [if_neg hlt.ne, if_neg (by omega), if_neg (by omega)]
    · simp [heq]
    · rw [if_neg hgt.ne', if_pos (by omega), if_pos hgt.le, show j - m.pos.val = j - (m.pos.val + 1) + 1 by omega,
        List.getD_cons_succ]

end

section
variable (c : Cipher) (e : Engine) (x : Nonce)

/-- The tweak block 0 chained: its encryption, with a whole block of room (R136, R139). -/
theorem macChain_macStart_tweakNonce :
    macChain (e.encrypt c) (macStart Config.tweakNonce) = ⟨e.encrypt c 0, 0, 0⟩ := rfl

theorem toBytes_nonce_ne_nil : toBytes x ≠ [] := List.ne_nil_of_length_pos (by simp)

/-- The nonce is absorbed into the encrypted tweak block (R177). -/
theorem nonceAccumulator_eq :
    nonceAccumulator c e x = macAbsorb (e.encrypt c) ⟨e.encrypt c 0, 0, 0⟩ (toBytes x) := by
  rw [nonceAccumulator, ← macAbsorb_macChain _ _ (toBytes_nonce_ne_nil x), macChain_macStart_tweakNonce]

theorem nonceAccumulator_pos : (nonceAccumulator c e x).pos.val = 7 := by
  rw [nonceAccumulator_eq, macAbsorb_pos_of_room] <;> simp

theorem byteOf_nonceAccumulator_acc {j : Nat} (hj : j < 16) : byteOf (nonceAccumulator c e x).acc j =
    byteOf (e.encrypt c 0) j ^^^ (if j < 7 then byteOf x j else 0) := by
  rw [nonceAccumulator_eq, byteOf_macAbsorb_acc_of_room _ (by simp) hj]
  congr 1
  by_cases h : j < 7
  · have hlen : j < (toBytes x).length := by simpa using h
    simp [h, toBytes_getElem]
  · simp [h]

/-- The block whose encryption is `N`, in the closed form of R177. -/
theorem macFinalBlock_nonceAccumulator (padFull padPartial : Block) :
    macFinalBlock padFull padPartial (nonceAccumulator c e x) =
      (e.encrypt c 0 ^^^ (x ++ 0x80#8 ++ 0#64)) ^^^ padPartial := by
  have hpos := nonceAccumulator_pos c e x
  refine eq_of_byteOf (n := 16) rfl _ _ fun j hj => ?_
  rw [byteOf_macFinalBlock_of_partial _ _ (by omega) hj, hpos, byteOf_nonceAccumulator_acc c e x hj, byteOf_xor,
    byteOf_xor, byteOf_paddedNonce x hj]
  congr 1
  rw [BitVec.xor_assoc]
  congr 1
  obtain hlt | rfl | hgt := lt_trichotomy j 7
  · simp [hlt, hlt.ne]
  · simp
  · simp [hgt.not_gt, hgt.ne']

/-- The two blocks that `INIT_MSG` gives the cipher (R81, R177). -/
theorem nonceTrace_eq : nonceTrace c e x =
    [.blockEncrypt 0, .blockEncrypt ((e.encrypt c 0 ^^^ (x ++ 0x80#8 ++ 0#64)) ^^^ e.padPartial)] := by
  have hinputs : macAbsorbInputs (e.encrypt c) (macStart Config.tweakNonce) (toBytes x) = [0] := by
    rw [macAbsorbInputs_of_full _ rfl (toBytes_nonce_ne_nil x), macChain_macStart_tweakNonce,
      macAbsorbInputs_of_room _ (by simp)]
    rfl
  rw [nonceTrace, hinputs, macFinalBlock_nonceAccumulator]
  rfl

theorem nonceMac_eq : nonceMac c e x =
    e.encrypt c ((e.encrypt c 0 ^^^ (x ++ 0x80#8 ++ 0#64)) ^^^ e.padPartial) := by
  rw [nonceMac, Engine.macFinish, macFinish, macFinalBlock_nonceAccumulator]

end

/-- Settles O26: the nonce's seven bytes fit into the block of the encrypted tweak 0, so `N` is the encryption of that
block, padded (R177). -/
theorem initMsgBeginsAMessage : Obligations.InitMsgBeginsAMessage := by
  refine fun nonce s => ⟨fun h => ?_, fun h => ⟨_, _, rfl, rfl, ?_⟩⟩
  · rw [exec_initMsg, initMessage_refused _ _ _ h]
    rfl
  · rw [exec_initMsg, initMessage_accepted _ _ _ h, nonceMac_eq, nonceTrace_eq]
    rfl

/-- Settles O27: by the cases of `AUTH` (R178, R182 to R184); each absorbed byte counts once, and the encryptions are
counted from R145's relation of position and count. -/
theorem authAbsorbsTheChunk : Obligations.AuthAbsorbsTheChunk := by
  refine fun len s => ⟨fun h => ?_, fun hphase hrange => ⟨fun hempty => ?_, fun hlen => ?_⟩⟩
  · rw [exec_auth, authenticate_refused _ _ _ h]
    rfl
  · rw [exec_auth, hempty, authenticate_empty _ _ hphase (by omega)]
    rfl
  · refine ⟨_, _, rfl, by simp, by simp, fun hpos => ?_,
      (exec_auth len s).trans (congrArg _ (authenticate_chunk _ _ _ hphase hrange hlen))⟩
    have hcalls := macAbsorbInputs_length s.E hpos (s.buf.readBytes 0 len.toNat)
    rw [Memory.readBytes_length] at hcalls
    rw [encryptions_read, encryptions_encryptEvents]
    exact Nat.eq_sub_of_add_eq hcalls

/-- Settles O28: by the cases of `CRYPT` (R179, R182 to R184); each byte written is the byte read at its offset XOR the
keystream byte of its position, and the encryptions are counted from R38's relation of position and count. -/
theorem cryptAppliesTheKeystream : Obligations.CryptAppliesTheKeystream := by
  refine fun len s => ⟨fun h => ?_, fun hphase hrange => ⟨fun hempty => ?_, fun hlen => ?_⟩⟩
  · rw [exec_crypt, crypt_refused _ _ _ h]
    rfl
  · rw [exec_crypt, hempty, crypt_empty _ _ hphase (by omega)]
    rfl
  · have hread := read_cryptOutput s.E s.eng.ctr s.buf len.toNat
    refine ⟨_, (exec_crypt len s).trans (congrArg _ (crypt_chunk _ _ _ hphase hrange hlen)), rfl,
      ctrAdvance_ccnt _ _ _, fun a ha => ?_, fun a ha => ?_, ?_, rfl, rfl, by simp, fun hpos => ?_⟩
    · exact (hread a).trans (if_pos ha)
    · exact (hread a).trans (if_neg ha.not_gt)
    · have hback := Memory.readBytes_writeBytes s.buf 0 (ctrOutput s.E s.eng.ctr (s.buf.readBytes 0 len.toNat))
      rwa [ctrOutput_length, Memory.readBytes_length] at hback
    · have hcalls := ctrInputs_length s.E (r := s.eng.ctr) hpos len.toNat
      simp only [encryptions_read, encryptions_append, encryptions_encryptEvents, encryptions_write, encryptions_nil,
        List.append_nil]
      exact Nat.eq_sub_of_add_eq hcalls

/-- The tag's bytes are the MAC's first four, each XOR that of `N` (R180). -/
theorem byteOf_messageTag (c : Cipher) (e : Engine) {i : Nat} (hi : i < 4) :
    byteOf (messageTag c e) i = byteOf (e.macFinish c e.mac) i ^^^ byteOf e.n i := by
  rw [messageTag, byteOf_xor, byteOf_firstFour _ hi, byteOf_firstFour _ hi]

/-- Settles O29: by the cases of `FINAL_TAG` (R182, R191), with the tag byte by byte (R180). -/
theorem finalTagChecksTheCountsAndMakesTheTag : Obligations.FinalTagChecksTheCountsAndMakesTheTag := by
  refine fun s => ⟨fun hready hstreaming => ⟨.tag s.eng.tag, ?_⟩,
    fun hphase => ⟨fun hne hpos => ?_, fun hcount => ?_⟩⟩
  · rw [exec_finalTag, finalizeTag_refused _ _ ⟨hready, hstreaming⟩]
    rfl
  · rw [exec_finalTag, finalizeTag_errCount _ _ hphase hne hpos]
  · exact ⟨messageTag Config.cipher s.eng, _, fun _ => byteOf_messageTag _ _, rfl, rfl,
      (exec_finalTag s).trans (congrArg _ (finalizeTag_tag _ _ hphase hcount))⟩

/-- Settles O24: `WIPE` installs `Engine.reset`, the reset values of R42, and completes with `OK` (R181). -/
theorem wipeClearsEveryElement : Obligations.WipeClearsEveryElement := by
  intro s
  rw [exec_wipe, wipeSession, Engine.reset]
  rfl

/-- `INIT_KEY` on the whole engine: a reset one, but for the key schedule, the padding pair and the phase (R176). -/
theorem initWithKey_eng (c : Cipher) (key : Key) (s : State) : (initWithKey c key s).eng =
    { Engine.reset with
      ks := some (c.deriveKeySchedule key), phase := .keyed,
      padFull := dbl (c.blockEncrypt (c.deriveKeySchedule key) 0),
      padPartial := dbl (dbl (c.blockEncrypt (c.deriveKeySchedule key) 0)) } := rfl

/-- Settles O25: the engine is the reset one with the key's schedule and padding pair (R176, R189). -/
theorem initKeyInstallsTheKey : Obligations.InitKeyInstallsTheKey := by
  refine fun key s => ⟨initWithKey Config.cipher key s, exec_initKey key s, ?_⟩
  rw [initWithKey_eng]
  exact ⟨rfl, rfl, rfl, rfl, rfl, rfl, rfl, rfl, rfl, rfl, rfl, rfl, rfl⟩

end Sys2Proof.Machine
end

section
/-! The whole-message commands as their sub-steps (R210, R212), and the release gate of `DEC_MSG` (R215). -/

namespace Sys2Proof.Machine

theorem exec_encMsg (len : Len) (nonce : Nonce) (s : State) :
    exec (.encMsg len nonce) s = .next (encryptMessage Config.cipher len.toNat nonce s) := rfl

theorem exec_decMsg (len : Len) (nonce : Nonce) (s : State) :
    exec (.decMsg len nonce) s = .next (decryptMessage Config.cipher len.toNat nonce s) := rfl

/-- A `MemWrite` changes no byte outside its range (R13). -/
theorem Memory.read_writeBytes_apart (m : Memory) {off a : Nat} {v : List Byte}
    (h : a < off ∨ off + v.length ≤ a) : (m.writeBytes off v).read a = m.read a := by
  rw [Memory.read_writeBytes, dif_neg (by omega)]

/-- An array written to the buffer stands there byte by byte (R13, R64). -/
theorem Memory.read_writeBytes_toBytes (m : Memory) (off : Nat) {w : Nat} (x : BitVec w) {i : Nat} (hi : i < w / 8) :
    (m.writeBytes off (toBytes x)).read (off + i) = byteOf x i := by
  have hrange : off ≤ off + i ∧ off + i < off + (toBytes x).length := by
    rw [toBytes_length]
    omega
  rw [Memory.read_writeBytes, dif_pos hrange, toBytes_getElem, Nat.add_sub_cancel_left]

/-- The comparison of `DEC_MSG` succeeds where the four bytes at `n` are those of the tag (R212, R214). -/
theorem tagDifference_readBytes_eq_zero (t : Tag) (m : Memory) (n : Nat) :
    tagDifference t (m.readBytes n 4) = 0 ↔ ∀ i < 4, m.read (n + i) = byteOf t i := by
  rw [tagDifference_eq_zero _ _ (Memory.readBytes_length m n 4)]
  refine forall₂_congr fun i hi => ?_
  rw [List.getD_eq_getElem _ _ (by simpa using hi), Memory.readBytes_getElem]

theorem initMessage_status_of_key (c : Cipher) (s : State) (x : Nonce) (h : s.eng.phase ≠ .uninitialized) :
    (initMessage c x s).eng.status = .ok := by
  rw [initMessage_accepted c s x h]

/-- Settles O40: the sub-steps end in `sealedEngine` with the ciphertext in the buffer, and `ENC_MSG` in the same engine
with the tag written after it. -/
theorem encMsgIsTheFourCommandsAndTheTag : Obligations.EncMsgIsTheFourCommandsAndTheTag := by
  refine fun len nonce s => ⟨fun h => ?_, fun h => ?_⟩
  · rw [exec_encMsg, encryptMessage_refused _ _ _ _ h]
    rfl
  · obtain ⟨s2, s3, s4, rfl, rfl, h4, hok2, hok3, rfl, -, -⟩ :=
      encrypt_substeps Config.cipher s nonce len.toNat h len.isLt
    refine ⟨_, _, _, _, _, exec_initMsg nonce s, exec_crypt len _, exec_auth len _,
      (exec_finalTag _).trans (congrArg _ h4), initMessage_status_of_key _ _ _ h, hok2, hok3, rfl,
      (exec_encMsg len nonce s).trans (congrArg _ (encryptMessage_accepted _ _ _ _ h len.isLt)),
      rfl, rfl, rfl, fun i hi => ?_, fun a ha => ?_⟩
    · exact Memory.read_writeBytes_toBytes _ _ _ hi
    · exact Memory.read_writeBytes_apart _ ha

/-- Settles O41: the sub-steps end in `openedEngine` with the plaintext in the buffer below `LEN`, and `DEC_MSG` goes
on from there by whether the four bytes after the message, read before them, are the tag's. -/
theorem decMsgIsTheFourCommandsAndTheComparison : Obligations.DecMsgIsTheFourCommandsAndTheComparison := by
  refine fun len nonce s => ⟨fun h => ?_, fun h => ?_⟩
  · rw [exec_decMsg, decryptMessage_refused _ _ _ _ h]
    rfl
  · obtain ⟨s2, s3, s4, rfl, rfl, h4, hok2, hok3, rfl, -, -⟩ :=
      decrypt_substeps Config.cipher s nonce len.toNat h len.isLt
    have hcompare := tagDifference_readBytes_eq_zero (openedEngine Config.cipher len.toNat nonce s).tag s.buf len.toNat
    refine ⟨_, _, _, _, _, exec_initMsg nonce s, exec_auth len _, exec_crypt len _,
      (exec_finalTag _).trans (congrArg _ h4), initMessage_status_of_key _ _ _ h, hok2, hok3, rfl,
      (exec_decMsg len nonce s).trans (congrArg _ (decryptMessage_accepted _ _ _ _ h len.isLt)),
      rfl, rfl, fun hagree => ?_, fun hdiffer => ?_, fun i _ => ?_⟩
    · have hzero := hcompare.2 hagree
      refine ⟨if_pos hzero, (if_pos hzero).trans ?_⟩
      rw [readBytes_cipherBytes]
    · have hnonzero := mt hcompare.1 (by simpa using hdiffer)
      exact ⟨if_neg hnonzero, if_neg hnonzero⟩
    · exact Memory.read_writeBytes_apart _ (.inr (by rw [cipherBytes_length]; omega))

/-- Settles O42: a refused `DEC_MSG` returns nothing, and an accepted one returns by the comparison of O41. -/
theorem decMsgReleasesPlaintextOnlyOnOk : Obligations.DecMsgReleasesPlaintextOnlyOnOk := by
  intro len nonce s
  obtain ⟨hrefused, haccepted⟩ := decMsgIsTheFourCommandsAndTheComparison len nonce s
  by_cases hphase : s.eng.phase = .uninitialized
  · exact ⟨_, hrefused hphase, by simp⟩
  · obtain ⟨-, -, -, s4, t, -, -, -, -, -, -, -, hok, hexec, -, -, hmatch, hmismatch, -⟩ := haccepted hphase
    refine ⟨t, hexec, ?_⟩
    by_cases hagree : ∀ i < 4, s.buf.read (len.toNat + i) = byteOf s4.eng.tag i
    · obtain ⟨heng, hresult⟩ := hmatch hagree
      simp [heng, hok, hresult]
    · obtain ⟨heng, hresult⟩ := hmismatch (by simpa using hagree)
      simp [heng, hresult]

end Sys2Proof.Machine
end

section
/-! Decoding inverts encoding (30_encoding.md): the operand fields of each format, the round trip in both directions,
and written descriptors. -/

namespace Sys2Proof

theorem ofBytes_len (len : Len) : ofBytes 32 (toBytes len) = len := ofBytes_toBytes (n := 4) rfl len

theorem ofBytes_nonce (nonce : Nonce) : ofBytes 56 (toBytes nonce) = nonce := ofBytes_toBytes (n := 7) rfl nonce

/-- The operand bytes of format W are those of the two fields that the decoder cuts them into (R93, R103). -/
theorem toBytes_formatW {rest : List Byte} (h : rest.length = 11) :
    toBytes (ofBytes 32 (rest.take 4)) ++ toBytes (ofBytes 56 (rest.drop 4)) = rest := by
  rw [toBytes_ofBytes _ (by simp [h]), toBytes_ofBytes _ (by simp [h]), List.take_append_drop]

theorem decode_of_encode {i : Instr} {d : List Byte} (h : encode i = some d) : decode d = .command i := by
  cases i with
  | initKey key => cases h; simp [decode, ofBytes_toBytes (n := 16)]
  | initMsg nonce => cases h; simp [decode, ofBytes_nonce]
  | auth len => cases h; simp [decode, ofBytes_len]
  | crypt len => cases h; simp [decode, ofBytes_len]
  | encMsg len nonce => cases h; simp [decode, ofBytes_len, ofBytes_nonce]
  | decMsg len nonce => cases h; simp [decode, ofBytes_len, ofBytes_nonce]
  | finalTag | wipe => cases h; rfl
  | gfDbl _ | subkey | macStart _ | macAbsorb _ _ | macFinish _ | ctrSeed _ | ctrApply _ | ctrInc _ => cases h

/-- Settles O1: every session command has a descriptor, and each field of it is read back from its bytes. -/
theorem decodeOfEncodeIsTheCommand : Obligations.DecodeOfEncodeIsTheCommand := by
  intro i hi
  obtain ⟨d, hd⟩ : ∃ d, encode i = some d :=
    Option.ne_none_iff_exists'.1 fun hnone => by simp [(encode_eq_none_iff i).1 hnone] at hi
  exact ⟨d, hd, decode_of_encode hd⟩

theorem encode_of_decode {d : List Byte} {i : Instr} (h : decode d = .command i) : encode i = some d := by
  cases d with
  | nil => cases h
  | cons op rest =>
    rw [decode] at h
    split_ifs at h with h1 h2 h3 h4 h5 h6 h7 h8 <;> cases h
    case pos => obtain ⟨rfl, hlen⟩ := h1; rw [encode, toBytes_ofBytes _ (by omega)]
    case pos => obtain ⟨rfl, hlen⟩ := h2; rw [encode, toBytes_ofBytes _ (by omega)]
    case pos => obtain ⟨rfl, hlen⟩ := h3; rw [encode, toBytes_ofBytes _ (by omega)]
    case pos => obtain ⟨rfl, hlen⟩ := h4; rw [encode, toBytes_ofBytes _ (by omega)]
    case pos => obtain ⟨rfl, hlen⟩ := h5; rw [encode, List.length_eq_zero_iff.1 hlen]
    case pos => obtain ⟨rfl, hlen⟩ := h6; rw [encode, toBytes_formatW hlen]
    case pos => obtain ⟨rfl, hlen⟩ := h7; rw [encode, toBytes_formatW hlen]
    case pos => obtain ⟨rfl, hlen⟩ := h8; rw [encode, List.length_eq_zero_iff.1 hlen]

/-- Settles O2: in each branch of the decoder the operand bytes are those of the fields it read. -/
theorem encodeOfDecodeIsTheDescriptor : Obligations.EncodeOfDecodeIsTheDescriptor := fun _ _ => encode_of_decode

/-- The decoder answers session commands alone (R101). -/
theorem hostIssuable_of_decode {d : List Byte} {i : Instr} (h : decode d = .command i) : i.hostIssuable = true := by
  rw [← Bool.not_eq_false, ← encode_eq_none_iff, encode_of_decode h]
  exact Option.some_ne_none d

/-- Settles O5: the decoder evaluated on each of the written descriptors. -/
theorem writtenDescriptorsDecode : Obligations.WrittenDescriptorsDecode := by
  unfold Obligations.WrittenDescriptorsDecode
  decide

end Sys2Proof
end

section
/-! Doubling as a linear map on blocks (40_gf_doubler.md, "Laws of doubling"). -/

namespace Sys2Proof.Machine

theorem dbl_xor (a b : Block) : dbl (a ^^^ b) = dbl a ^^^ dbl b := by
  have hreduction : (if (a.msb ^^ b.msb) = true then Config.gfReduce else 0) =
      (if a.msb = true then Config.gfReduce else 0) ^^^ (if b.msb = true then Config.gfReduce else 0) := by
    cases a.msb <;> cases b.msb <;> simp
  rw [dbl_eq_xor, dbl_eq_xor, dbl_eq_xor, BitVec.shiftLeft_xor_distrib, BitVec.msb_xor, hreduction]
  ac_rfl

/-- Only the zero block doubles to zero: the reduction constant is odd, and a shifted block is even. -/
theorem eq_zero_of_dbl_eq_zero {b : Block} (h : dbl b = 0) : b = 0 := by
  have hval := congrArg BitVec.toNat h
  rw [dbl_toNat] at hval
  split at hval
  · have hodd := congrArg (· % 2) hval
    simp [Nat.xor_mod_two_eq] at hodd
    omega
  · apply BitVec.eq_of_toNat_eq
    simp at hval ⊢
    omega

theorem dbl_injective : Function.Injective dbl := by
  intro a b h
  rw [← BitVec.xor_eq_zero_iff]
  apply eq_zero_of_dbl_eq_zero
  rw [dbl_xor, h]
  exact BitVec.xor_self

/-- Settles O13: the shift and the choice of the constant are linear, the kernel is zero, and blocks are finitely
many. -/
theorem doublingIsALinearBijection : Obligations.DoublingIsALinearBijection :=
  ⟨dbl_xor, Finite.injective_iff_bijective.1 dbl_injective⟩

end Sys2Proof.Machine
end

section
/-! The accumulator as OMAC of the byte stream it has taken in (R144, R145): after the stream `x`, all blocks of `x` but
the last are chained, and the last stands in the accumulator, not yet encrypted. -/

namespace Sys2Proof

/-- A block that begins with the bytes `d` and goes on with zeros. -/
def zeroPadded (d : List Byte) : Block := ofBytes 128 (d ++ List.replicate (16 - d.length) 0)

theorem byteOf_ofBytes_getD (d : List Byte) (h : d.length = 16) {j : Nat} (hj : j < 16) :
    byteOf (ofBytes 128 d) j = d.getD j 0 := by
  rw [byteOf_ofBytes d (by omega) j (by omega), List.getD_eq_getElem _ _ (by omega)]

/-- A byte XORed in right after the bytes of a zero-padded block stands there (R138, R142). -/
theorem xorByteAt_zeroPadded (d : List Byte) (v : Byte) (h : d.length < 16) :
    xorByteAt (zeroPadded d) d.length v = ofBytes 128 (d ++ v :: List.replicate (15 - d.length) 0) := by
  refine eq_of_byteOf (n := 16) rfl _ _ fun j hj => ?_
  rw [byteOf_xorByteAt_eq_xor _ _ h hj, zeroPadded, byteOf_ofBytes_getD _ (by simp; omega) hj,
    byteOf_ofBytes_getD _ (by simp; omega) hj]
  obtain hlt | rfl | hgt := lt_trichotomy j d.length
  · rw [if_neg hlt.ne, List.getD_append _ _ _ _ hlt, List.getD_append _ _ _ _ hlt]
    exact BitVec.xor_zero
  · rw [if_pos rfl, List.getD_append_right _ _ _ _ le_rfl, List.getD_append_right _ _ _ _ le_rfl, Nat.sub_self,
      List.getD_replicate _ (by omega), List.getD_cons_zero]
    exact BitVec.zero_xor
  · obtain ⟨k, hk⟩ : ∃ k, j - d.length = k + 1 := ⟨j - d.length - 1, by omega⟩
    rw [if_neg hgt.ne', List.getD_append_right _ _ _ _ hgt.le, List.getD_append_right _ _ _ _ hgt.le, hk,
      List.getD_cons_succ, List.getD_replicate _ (by omega), List.getD_replicate _ (by omega)]
    exact BitVec.xor_zero

theorem zeroPadded_concat (d : List Byte) (v : Byte) (h : d.length < 16) :
    zeroPadded (d ++ [v]) = xorByteAt (zeroPadded d) d.length v := by
  rw [xorByteAt_zeroPadded d v h, zeroPadded, List.append_assoc, List.length_append, List.length_singleton,
    show 16 - (d.length + 1) = 15 - d.length by omega]
  rfl

theorem zeroPadded_of_full {d : List Byte} (h : d.length = 16) : zeroPadded d = ofBytes 128 d := by
  rw [zeroPadded, h, Nat.sub_self, List.replicate_zero, List.append_nil]

theorem xorByteAt_xor (a b : Block) (i : Nat) (v : Byte) : xorByteAt (a ^^^ b) i v = a ^^^ xorByteAt b i v :=
  BitVec.xor_assoc _ _ _

end Sys2Proof

namespace Sys2Proof.Machine

/-- All whole blocks of a stream but the last block, which holds 1 to 16 bytes (R144). -/
def chainedBlocks (x : List Byte) : List Block :=
  (List.range ((x.length - 1) / 16)).map (fun j => ofBytes 128 ((x.drop (16 * j)).take 16))

/-- The last block of a stream (R144). -/
def lastBlock (x : List Byte) : List Byte := x.drop (16 * ((x.length - 1) / 16))

theorem lastBlock_length (x : List Byte) : (lastBlock x).length = x.length - 16 * ((x.length - 1) / 16) :=
  List.length_drop

/-- The closed form of R144 in terms of these two. -/
theorem omacOfStream_eq (E : Block → Block) (padFull padPartial : Block) (x : List Byte) :
    omacOfStream E padFull padPartial x =
      if (lastBlock x).length = 16
      then E (cbcChain E zeroBlock (chainedBlocks x) ^^^ ofBytes 128 (lastBlock x) ^^^ padFull)
      else E (cbcChain E zeroBlock (chainedBlocks x) ^^^
        ofBytes 128 (lastBlock x ++ 0x80 :: List.replicate (15 - (lastBlock x).length) 0) ^^^ padPartial) := rfl

/-- A stream of at most 16 bytes is its own last block. -/
theorem lastBlock_of_short {x : List Byte} (h : x.length ≤ 16) : lastBlock x = x ∧ chainedBlocks x = [] := by
  have hk : (x.length - 1) / 16 = 0 := by omega
  rw [lastBlock, chainedBlocks, hk]
  exact ⟨rfl, rfl⟩

/-- While the last block has room, a further byte of the stream joins it. -/
theorem lastBlock_concat_of_room {x : List Byte} (hx : x ≠ []) (h : (lastBlock x).length < 16) (b : Byte) :
    lastBlock (x ++ [b]) = lastBlock x ++ [b] ∧ chainedBlocks (x ++ [b]) = chainedBlocks x := by
  have hpos := List.length_pos_of_ne_nil hx
  rw [lastBlock_length] at h
  have hk : ((x ++ [b]).length - 1) / 16 = (x.length - 1) / 16 := by simp; omega
  rw [lastBlock, lastBlock, chainedBlocks, chainedBlocks, hk]
  refine ⟨List.drop_append_of_le_length (by omega), List.map_congr_left fun j hj => ?_⟩
  rw [List.mem_range] at hj
  rw [List.drop_append_of_le_length (by omega), List.take_append_of_le_length (by simp; omega)]

/-- When the last block is full, a further byte of the stream begins the next one. -/
theorem lastBlock_concat_of_full {x : List Byte} (hx : x ≠ []) (h : (lastBlock x).length = 16) (b : Byte) :
    lastBlock (x ++ [b]) = [b] ∧ chainedBlocks (x ++ [b]) = chainedBlocks x ++ [ofBytes 128 (lastBlock x)] := by
  have hpos := List.length_pos_of_ne_nil hx
  have hlast := h
  rw [lastBlock_length] at h
  have hk : ((x ++ [b]).length - 1) / 16 = (x.length - 1) / 16 + 1 := by simp; omega
  rw [lastBlock, chainedBlocks, chainedBlocks, hk, List.range_succ, List.map_append, List.map_singleton]
  refine ⟨List.drop_left' (by omega), congrArg₂ _ (List.map_congr_left fun j hj => ?_) ?_⟩
  · rw [List.mem_range] at hj
    rw [List.drop_append_of_le_length (by omega), List.take_append_of_le_length (by simp; omega)]
  · rw [List.drop_append_of_le_length (by omega)]
    exact congrArg (fun y => [ofBytes 128 y]) (List.take_left' hlast)

theorem cbcChain_concat (E : Block → Block) (v : Block) (xs : List Block) (x : Block) :
    cbcChain E v (xs ++ [x]) = E (cbcChain E v xs ^^^ x) := by
  simp [cbcChain]

/-- The accumulator that has taken in the stream `x`. -/
structure HoldsStream (E : Block → Block) (x : List Byte) (m : Accumulator) : Prop where
  pos : m.pos.val = (lastBlock x).length
  acc : m.acc = cbcChain E zeroBlock (chainedBlocks x) ^^^ zeroPadded (lastBlock x)

variable {E : Block → Block}

/-- `MAC_START` has taken in the tweak block (R136). -/
theorem holdsStream_macStart (t : Byte) : HoldsStream E (List.replicate 15 0 ++ [t]) (macStart t) := by
  obtain ⟨hlast, hblocks⟩ := lastBlock_of_short (x := List.replicate 15 0 ++ [t]) (by simp)
  have hzero : zeroPadded (List.replicate 15 0) = zeroBlock := by decide
  refine ⟨by rw [hlast]; rfl, ?_⟩
  rw [macStart_acc, hlast, hblocks, zeroPadded_concat _ _ (by decide), hzero]
  exact BitVec.zero_xor.symm

/-- An absorbed byte extends the stream (R138, R139). -/
theorem HoldsStream.macByte {x : List Byte} {m : Accumulator} (h : HoldsStream E x m) (hx : x ≠ []) (b : Byte) :
    HoldsStream E (x ++ [b]) (macByte E m b) := by
  have hpos := macByte_pos E m b
  obtain ⟨hfull, hchain⟩ | ⟨hroom, hchain⟩ := macChain_cases E m
  · obtain ⟨hlast, hblocks⟩ := lastBlock_concat_of_full hx (h.pos ▸ hfull) b
    refine ⟨by rw [hpos, if_pos hfull, hlast]; rfl, ?_⟩
    have hempty : zeroPadded [] = zeroBlock := by decide
    have hone := zeroPadded_concat [] b (by decide)
    rw [hempty, List.nil_append] at hone
    rw [Machine.macByte, hchain, hlast, hblocks, hone, cbcChain_concat, ← xorByteAt_xor,
      ← zeroPadded_of_full (h.pos ▸ hfull), ← h.acc]
    exact congrArg (xorByteAt · 0 b) BitVec.xor_zero.symm
  · obtain ⟨hlast, hblocks⟩ := lastBlock_concat_of_room hx (h.pos ▸ hroom) b
    refine ⟨by rw [hpos, if_neg hroom.ne, hlast, h.pos]; simp, ?_⟩
    rw [Machine.macByte, hchain, hlast, hblocks, zeroPadded_concat _ _ (h.pos ▸ hroom), ← xorByteAt_xor, ← h.acc,
      h.pos]

theorem HoldsStream.macAbsorb {x : List Byte} {m : Accumulator} (h : HoldsStream E x m) (hx : x ≠ [])
    (d : List Byte) : HoldsStream E (x ++ d) (macAbsorb E m d) := by
  induction d generalizing x m with
  | nil => rwa [List.append_nil]
  | cons b d ih =>
    rw [macAbsorb_cons, List.append_cons]
    exact ih (h.macByte hx b) (by simp)

/-- Finishing the accumulator gives the closed form of its stream (R142, R144). -/
theorem HoldsStream.macFinish_eq {x : List Byte} {m : Accumulator} (h : HoldsStream E x m)
    (padFull padPartial : Block) : macFinish E padFull padPartial m = omacOfStream E padFull padPartial x := by
  rw [omacOfStream_eq, macFinish, ← h.pos]
  split
  · next hfull => rw [macFinalBlock_of_full _ _ hfull, h.acc, zeroPadded_of_full (h.pos ▸ hfull)]
  · have hroom : m.pos.val < 16 := by omega
    rw [macFinalBlock, if_pos hroom, h.acc, xorByteAt_xor, h.pos, xorByteAt_zeroPadded _ _ (h.pos ▸ hroom)]

/-- Settles O18: `MAC_START` holds the tweak block, each byte extends the stream, and `MAC_FINISH` pads its last
block. -/
theorem macIsOmacOfTweakBlockAndMessage : Obligations.MacIsOmacOfTweakBlockAndMessage := by
  intro c e t d
  have hstream := (holdsStream_macStart (E := e.encrypt c) t).macAbsorb (by simp) d
  rw [List.append_assoc, List.singleton_append] at hstream
  exact hstream.macFinish_eq _ _

end Sys2Proof.Machine
end

section
/-! The CTR engine over a whole message (42_ctr_engine.md, "Derived facts"): the closed form from a seed, and applying
the keystream twice. -/

namespace Sys2Proof.Machine

variable (E : Block → Block) (seed : Block)

/-- The registers after `n` bytes from a seed (R38, R161). -/
theorem ctrAdvance_ctrSeed_belongs (n : Nat) : CtrBelongs E seed (ctrAdvance E (ctrSeed seed) n) :=
  ctrAdvance_belongs E (ctrSeed_belongs E seed) n

theorem ctrAdvance_ctrSeed_ccnt (n : Nat) : (ctrAdvance E (ctrSeed seed) n).ccnt = n := by
  rw [ctrAdvance_ccnt]
  exact Nat.zero_add n

/-- The `k`-th byte from a seed meets the `k`-th byte of the encrypted counter sequence (R161). -/
theorem ctrKeyByte_ctrSeed (k : Nat) : ctrKeyByte E (ctrAdvance E (ctrSeed seed) k) = keystreamByte E seed k := by
  rw [ctrKeyByte_belongs E (ctrAdvance_ctrSeed_belongs E seed k), ctrAdvance_ctrSeed_ccnt]

theorem ctrOutput_ctrSeed_getD (d : List Byte) {k : Nat} (hk : k < d.length) :
    (ctrOutput E (ctrSeed seed) d).getD k 0 = d.getD k 0 ^^^ keystreamByte E seed k := by
  have hout : k < (ctrOutput E (ctrSeed seed) d).length := by rwa [ctrOutput_length]
  rw [List.getD_eq_getElem _ _ hout, List.getD_eq_getElem _ _ hk, ctrOutput_getElem, ctrKeyByte_ctrSeed]

variable {E seed}

/-- The counter of R38 as an integer. -/
theorem CtrBelongs.ctr_toNat {r : CtrState} (h : CtrBelongs E seed r) :
    r.ctr.toNat = (seed.toNat + blocksFor r.ccnt) % 2 ^ 128 := by
  rw [h.counter, BitVec.toNat_add, BitVec.toNat_ofNat, Nat.add_mod_mod]

/-- Settles O22: the registers after `n` bytes belong to the seed and `n`, and so does each keystream byte. -/
theorem keystreamIsTheEncryptedCounterSequence : Obligations.KeystreamIsTheEncryptedCounterSequence := by
  intro s seed d hseed
  change s.eng.ctr = ctrSeed seed at hseed
  have hbelongs := ctrAdvance_ctrSeed_belongs s.E seed d.length
  have hcount := ctrAdvance_ctrSeed_ccnt s.E seed d.length
  have hpos := hbelongs.ksPos
  have hctr := hbelongs.ctr_toNat
  have hcache := hbelongs.cache
  rw [hcount] at hpos hctr hcache
  refine ⟨ctrAdvance s.E (ctrSeed seed) d.length, ctrOutput s.E (ctrSeed seed) d,
    encryptEvents (ctrInputs s.E (ctrSeed seed) d.length), ?_, ctrOutput_length ..,
    fun k hk => ctrOutput_ctrSeed_getD s.E seed d hk, hcount, hctr, hpos, hcache⟩
  rw [exec_ctrApply, ctrApplyUnit, hseed]
  rfl

/-- Settles O23: the keystream depends on the registers alone, so it cancels, and the registers advance by the number of
bytes alone. -/
theorem ctrApplyIsSelfInverse : Obligations.CtrApplyIsSelfInverse := by
  refine fun s d => ⟨_, _, ctrOutput s.E s.eng.ctr d, exec_ctrApply d s, rfl, exec_ctrApply _ s, ?_, ?_⟩
  · exact congrArg Result.bytes (ctrOutput_selfInverse s.E s.eng.ctr d)
  · simp only [ctrApplyUnit, State.returns_eng, ctrOutput_length]

end Sys2Proof.Machine
end

section
/-! The session commands as case analyses over every state (43_session.md, section 1; 60_exceptions.md): refused with
nothing but `STATUS` written, or accepted with the phase of the table. -/

namespace Sys2Proof.Machine

section
variable (c : Cipher) (n : Nat) (x : Nonce) (s : State)

/-- `AUTH` of the bytes `d` on the engine (R178, R184). -/
def Engine.authChunk (c : Cipher) (d : List Byte) (e : Engine) : Engine :=
  { e with mac := macAbsorb (e.encrypt c) e.mac d, phase := if d.length = 0 then e.phase else .streaming,
           status := .ok }

/-- `CRYPT` of `n` bytes on the engine (R179, R184). -/
def Engine.cryptChunk (c : Cipher) (n : Nat) (e : Engine) : Engine :=
  { e with ctr := ctrAdvance (e.encrypt c) e.ctr n, phase := if n = 0 then e.phase else .streaming, status := .ok }

theorem initMessage_cases :
    (s.eng.phase = .uninitialized ∧ initMessage c x s = s.fail .errUsage) ∨
    (s.eng.phase ≠ .uninitialized ∧ initMessage c x s =
      { s with eng := messageEngine c x 0 [] .messageReady s.eng, result := .none,
               trace := nonceTrace c s.eng x }) := by
  by_cases h : s.eng.phase = .uninitialized
  · exact .inl ⟨h, initMessage_refused c s x h⟩
  · exact .inr ⟨h, initMessage_engine c s x h⟩

/-- The two checks of `AUTH` and `CRYPT` pass (R182, R183). -/
theorem chunkAccepted_iff (p : Phase) (k n : Nat) : p.inMessage = true ∧ counterOverflows k n = false ↔
    (p = .messageReady ∨ p = .streaming) ∧ k + n < 2 ^ 32 := by
  rw [Phase.inMessage_iff, ← Bool.not_eq_true, counterOverflows_iff, not_le]

theorem chunkRefused_iff_not_accepted (p : Phase) (k n : Nat) : p.inMessage = false ∨ counterOverflows k n = true ↔
    ¬ (p.inMessage = true ∧ counterOverflows k n = false) := by
  rw [not_and_or, Bool.not_eq_true, Bool.not_eq_false]

/-- One of the two checks of `AUTH` and `CRYPT` fails (R182, R183). -/
theorem chunkRefused_iff (p : Phase) (k n : Nat) : p.inMessage = false ∨ counterOverflows k n = true ↔
    (p ≠ .messageReady ∧ p ≠ .streaming) ∨ 2 ^ 32 ≤ k + n := by
  rw [counterOverflows_iff, ← Bool.not_eq_true, Phase.inMessage_iff, not_or]

/-- `AUTH` refused, or accepted with its effect on the engine; the buffer stays in both cases (R178, R182, R183). -/
theorem authenticate_cases :
    ((s.eng.phase.inMessage = false ∨ counterOverflows s.eng.mac.cnt n = true) ∧
      authenticate c n s = s.fail .errUsage) ∨
    ((s.eng.phase.inMessage = true ∧ counterOverflows s.eng.mac.cnt n = false) ∧
      authenticate c n s =
        { s with eng := s.eng.authChunk c (s.buf.readBytes 0 n), result := .none,
                 trace := if n = 0 then [] else .memRead 0 n ::
                   encryptEvents (macAbsorbInputs (s.eng.encrypt c) s.eng.mac (s.buf.readBytes 0 n)) }) := by
  rw [chunkRefused_iff, chunkAccepted_iff]
  by_cases h : (s.eng.phase = .messageReady ∨ s.eng.phase = .streaming) ∧ s.eng.mac.cnt + n < 2 ^ 32
  · refine .inr ⟨h, ?_⟩
    rw [authenticate_accepted c s n h.1 h.2, Engine.authChunk, Memory.readBytes_length]
  · rw [← chunkAccepted_iff, ← chunkRefused_iff_not_accepted, chunkRefused_iff] at h
    exact .inl ⟨h, authenticate_refused c s n h⟩

/-- `CRYPT` refused, or accepted with its effect on the engine and the buffer (R179, R182, R183). -/
theorem crypt_cases :
    ((s.eng.phase.inMessage = false ∨ counterOverflows s.eng.ctr.ccnt n = true) ∧
      crypt c n s = s.fail .errUsage) ∨
    ((s.eng.phase.inMessage = true ∧ counterOverflows s.eng.ctr.ccnt n = false) ∧
      crypt c n s =
        { s with eng := s.eng.cryptChunk c n,
                 buf := s.buf.writeBytes 0 (ctrOutput (s.eng.encrypt c) s.eng.ctr (s.buf.readBytes 0 n)),
                 result := .none,
                 trace := if n = 0 then [] else .memRead 0 n ::
                   (encryptEvents (ctrInputs (s.eng.encrypt c) s.eng.ctr n) ++ [.memWrite 0 n]) }) := by
  rw [chunkRefused_iff, chunkAccepted_iff]
  by_cases h : (s.eng.phase = .messageReady ∨ s.eng.phase = .streaming) ∧ s.eng.ctr.ccnt + n < 2 ^ 32
  · exact .inr ⟨h, crypt_accepted c s n h.1 h.2⟩
  · rw [← chunkAccepted_iff, ← chunkRefused_iff_not_accepted, chunkRefused_iff] at h
    exact .inl ⟨h, crypt_refused c s n h⟩

theorem encryptMessage_cases (hn : n < 2 ^ 32) :
    (s.eng.phase = .uninitialized ∧ encryptMessage c n x s = s.fail .errUsage) ∨
    (s.eng.phase ≠ .uninitialized ∧ ∃ tr, encryptMessage c n x s =
      { s with
        eng := sealedEngine c n x s
        buf := (s.buf.writeBytes 0 (cipherBytes c n x s)).writeBytes n (toBytes (sealedEngine c n x s).tag)
        result := .none, trace := tr }) := by
  by_cases h : s.eng.phase = .uninitialized
  · exact .inl ⟨h, encryptMessage_refused c s n x h⟩
  · exact .inr ⟨h, _, encryptMessage_accepted c s n x h hn⟩

theorem decryptMessage_cases (hn : n < 2 ^ 32) :
    (s.eng.phase = .uninitialized ∧ decryptMessage c n x s = s.fail .errUsage) ∨
    (s.eng.phase ≠ .uninitialized ∧ ∃ eng result tr,
      (eng = openedEngine c n x s ∨ eng = { openedEngine c n x s with tag := 0, status := .errAuth }) ∧
      decryptMessage c n x s =
        { s with eng := eng, buf := s.buf.writeBytes 0 (plainBytes c n x s), result := result, trace := tr }) := by
  by_cases h : s.eng.phase = .uninitialized
  · exact .inl ⟨h, decryptMessage_refused c s n x h⟩
  · exact .inr ⟨h, _, _, _, ite_eq_or_eq .., decryptMessage_accepted c s n x h hn⟩

end

/-! ### The phase table (R175) -/

theorem phaseAfter_auth_of_inMessage (len : Len) {p : Phase} (h : p.inMessage = true) :
    phaseAfter (.auth len) p = some (if len.toNat = 0 then p else .streaming) := by
  have hzero : len.toNat = 0 ↔ len = 0 := BitVec.toNat_inj (y := 0)
  rcases (Phase.inMessage_iff p).1 h with rfl | rfl <;> simp only [phaseAfter, hzero] <;> split <;> rfl

theorem phaseAfter_auth_of_not_inMessage (len : Len) {p : Phase} (h : p.inMessage = false) :
    phaseAfter (.auth len) p = none := by
  revert h
  cases p <;> simp [phaseAfter, Phase.inMessage]

/-- The two chunk commands have the same row of the table. -/
theorem phaseAfter_crypt (len : Len) (p : Phase) : phaseAfter (.crypt len) p = phaseAfter (.auth len) p := by
  cases p <;> rfl

/-- What the table and the counter range say of a command that leaves `s` for `t` (R175, R182, R183). -/
def FollowsPhaseTable (i : Instr) (s t : State) : Prop :=
  (phaseAfter i s.eng.phase = none ∨ overflowsCounter i s.eng = true →
    t.eng = { s.eng with status := .errUsage } ∧ t.buf = s.buf ∧ t.trace = []) ∧
  (∀ p, phaseAfter i s.eng.phase = some p → overflowsCounter i s.eng = false →
    t.eng.phase = p ∧ t.eng.status ≠ .errUsage)

theorem FollowsPhaseTable.of_refused {i : Instr} {s t : State} (h : t = s.fail .errUsage)
    (hi : phaseAfter i s.eng.phase = none ∨ overflowsCounter i s.eng = true) : FollowsPhaseTable i s t := by
  subst h
  exact ⟨fun _ => ⟨rfl, rfl, rfl⟩, fun p hp ho => by simp [hp, ho] at hi⟩

theorem FollowsPhaseTable.of_accepted {i : Instr} {s t : State} (hp : phaseAfter i s.eng.phase = some t.eng.phase)
    (ho : overflowsCounter i s.eng = false) (hs : t.eng.status ≠ .errUsage) : FollowsPhaseTable i s t :=
  ⟨fun h => by simp [hp, ho] at h, fun p h _ => ⟨Option.some.inj (hp.symm.trans h), hs⟩⟩

section
variable (c : Cipher) (s : State) (n : Nat) (x : Nonce) (len : Len)

theorem initMsg_followsPhaseTable : FollowsPhaseTable (.initMsg x) s (initMessage c x s) := by
  obtain ⟨hp, he⟩ | ⟨hp, he⟩ := initMessage_cases c x s
  · exact .of_refused he (.inl (by rw [hp]; rfl))
  · refine .of_accepted ?_ rfl (by rw [he]; exact Status.noConfusion)
    rw [he]
    revert hp
    cases s.eng.phase <;> simp [phaseAfter, messageEngine]

theorem auth_followsPhaseTable : FollowsPhaseTable (.auth len) s (authenticate c len.toNat s) := by
  obtain ⟨h, he⟩ | ⟨⟨hp, ho⟩, he⟩ := authenticate_cases c len.toNat s
  · exact .of_refused he (h.imp_left (phaseAfter_auth_of_not_inMessage len))
  · refine .of_accepted ?_ ho (by rw [he]; exact Status.noConfusion)
    rw [he, phaseAfter_auth_of_inMessage len hp, Engine.authChunk, Memory.readBytes_length]

theorem crypt_followsPhaseTable : FollowsPhaseTable (.crypt len) s (crypt c len.toNat s) := by
  obtain ⟨h, he⟩ | ⟨⟨hp, ho⟩, he⟩ := crypt_cases c len.toNat s
  · refine .of_refused he (h.imp_left fun hp => ?_)
    rw [phaseAfter_crypt, phaseAfter_auth_of_not_inMessage len hp]
  · refine .of_accepted ?_ ho (by rw [he]; exact Status.noConfusion)
    rw [he, phaseAfter_crypt, phaseAfter_auth_of_inMessage len hp]
    rfl

theorem finalTag_followsPhaseTable : FollowsPhaseTable .finalTag s (finalizeTag c s) := by
  obtain ⟨hp, he⟩ | ⟨hp, code, tag, tr, hcode, he⟩ := finalizeTag_cases c s
  · have hnone : phaseAfter .finalTag s.eng.phase = none := by
      revert hp
      cases s.eng.phase <;> simp [phaseAfter, Phase.inMessage]
    rw [he]
    exact ⟨fun _ => ⟨rfl, rfl, rfl⟩, fun p h => by simp [hnone] at h⟩
  · refine .of_accepted ?_ rfl ?_
    · rw [he]
      rcases (Phase.inMessage_iff _).1 hp with hp | hp <;> rw [hp] <;> rfl
    · rw [he]
      rcases hcode with rfl | rfl | rfl <;> exact Status.noConfusion

theorem encMsg_followsPhaseTable : FollowsPhaseTable (.encMsg len x) s (encryptMessage c len.toNat x s) := by
  obtain ⟨hp, he⟩ | ⟨hp, tr, he⟩ := encryptMessage_cases c len.toNat x s len.isLt
  · exact .of_refused he (.inl (by rw [hp]; rfl))
  · refine .of_accepted ?_ rfl (by rw [he]; exact Status.noConfusion)
    rw [he]
    revert hp
    cases s.eng.phase <;> simp [phaseAfter, messageEnd]

theorem decMsg_followsPhaseTable : FollowsPhaseTable (.decMsg len x) s (decryptMessage c len.toNat x s) := by
  obtain ⟨hp, he⟩ | ⟨hp, eng, r, tr, heng, he⟩ := decryptMessage_cases c len.toNat x s len.isLt
  · exact .of_refused he (.inl (by rw [hp]; rfl))
  · have hphase : phaseAfter (.decMsg len x) s.eng.phase = some .finalized := by
      revert hp
      cases s.eng.phase <;> simp [phaseAfter]
    rw [he]
    rcases heng with rfl | rfl <;> exact .of_accepted hphase rfl Status.noConfusion

end

/-- Every session command follows the table (R175). -/
theorem exec_followsPhaseTable {i : Instr} {s t : State} (hi : i.hostIssuable = true) (h : exec i s = .next t) :
    FollowsPhaseTable i s t := by
  cases i with
  | initKey key => cases h; exact .of_accepted rfl rfl Status.noConfusion
  | initMsg x => cases h; exact initMsg_followsPhaseTable _ s x
  | auth len => cases h; exact auth_followsPhaseTable _ s len
  | crypt len => cases h; exact crypt_followsPhaseTable _ s len
  | finalTag => cases h; exact finalTag_followsPhaseTable _ s
  | encMsg len x => cases h; exact encMsg_followsPhaseTable _ s x len
  | decMsg len x => cases h; exact decMsg_followsPhaseTable _ s x len
  | wipe => cases h; exact .of_accepted rfl rfl Status.noConfusion
  | gfDbl _ | subkey | macStart _ | macAbsorb _ _ | macFinish _ | ctrSeed _ | ctrApply _ | ctrInc _ => cases hi

/-- Settles O30: by the cases of each command against its row of the table; an illegal descriptor writes `STATUS`
alone. -/
theorem commandsFollowThePhaseTable : Obligations.CommandsFollowThePhaseTable := by
  refine ⟨fun i s hi => ?_, fun s t d brought rest why hp hd h => ?_⟩
  · obtain ⟨t, h⟩ := exec_next s i
    obtain ⟨hrefused, haccepted⟩ := exec_followsPhaseTable hi h
    exact ⟨t, h, fun hr => (hrefused hr).imp_right And.left, haccepted⟩
  · rw [step_of_pending_illegal hp hd] at h
    cases h
    rfl

/-- A command that reports `ERR_USAGE` is one that the table or the counter range refuses (R175, R183). -/
theorem exec_of_errUsage {i : Instr} {s t : State} (hi : i.hostIssuable = true) (h : exec i s = .next t)
    (hs : t.eng.status = .errUsage) :
    t.eng = { s.eng with status := .errUsage } ∧ t.buf = s.buf ∧ t.trace = [] := by
  obtain ⟨hrefused, haccepted⟩ := exec_followsPhaseTable hi h
  apply hrefused
  by_contra hnot
  rw [not_or, Option.eq_none_iff_forall_ne_some, Bool.not_eq_true] at hnot
  obtain ⟨hphase, hrange⟩ := hnot
  push Not at hphase
  obtain ⟨p, hp⟩ := hphase
  exact (haccepted p hp hrange).2 hs

/-- Settles O31: what reports `ERR_USAGE` was refused, and no command touches the waiting inputs. -/
theorem usageErrorsChangeNothing : Obligations.UsageErrorsChangeNothing := by
  intro i s t hi h hs
  obtain ⟨heng, hbuf, -⟩ := exec_of_errUsage hi h hs
  exact ⟨heng, hbuf, exec_pending h⟩

end Sys2Proof.Machine
end

section
/-! The statuses of each command, the commands that begin anew, and the elements that hold the key
(60_exceptions.md; 20_memory.md, section 3; 10_state.md, section 2). -/

namespace Sys2Proof.Machine

section
variable (c : Cipher) (s : State) (n : Nat) (x : Nonce)

theorem initMessage_status : (initMessage c x s).eng.status = .ok ∨ (initMessage c x s).eng.status = .errUsage := by
  obtain ⟨-, he⟩ | ⟨-, he⟩ := initMessage_cases c x s <;> rw [he]
  · exact .inr rfl
  · exact .inl rfl

theorem authenticate_status :
    (authenticate c n s).eng.status = .ok ∨ (authenticate c n s).eng.status = .errUsage := by
  obtain ⟨-, he⟩ | ⟨-, he⟩ := authenticate_cases c n s <;> rw [he]
  · exact .inr rfl
  · exact .inl rfl

theorem crypt_status : (crypt c n s).eng.status = .ok ∨ (crypt c n s).eng.status = .errUsage := by
  obtain ⟨-, he⟩ | ⟨-, he⟩ := crypt_cases c n s <;> rw [he]
  · exact .inr rfl
  · exact .inl rfl

theorem finalizeTag_status : (finalizeTag c s).eng.status = .ok ∨ (finalizeTag c s).eng.status = .warnAuthOnly ∨
    (finalizeTag c s).eng.status = .errCount ∨ (finalizeTag c s).eng.status = .errUsage := by
  obtain ⟨-, he⟩ | ⟨-, code, tag, tr, hcode, he⟩ := finalizeTag_cases c s <;> rw [he]
  · exact .inr (.inr (.inr rfl))
  · rcases hcode with rfl | rfl | rfl <;> simp

theorem encryptMessage_status (hn : n < 2 ^ 32) :
    (encryptMessage c n x s).eng.status = .ok ∨ (encryptMessage c n x s).eng.status = .errUsage := by
  obtain ⟨-, he⟩ | ⟨-, tr, he⟩ := encryptMessage_cases c n x s hn <;> rw [he]
  · exact .inr rfl
  · exact .inl rfl

theorem decryptMessage_status (hn : n < 2 ^ 32) : (decryptMessage c n x s).eng.status = .ok ∨
    (decryptMessage c n x s).eng.status = .errAuth ∨ (decryptMessage c n x s).eng.status = .errUsage := by
  obtain ⟨-, he⟩ | ⟨-, eng, r, tr, heng, he⟩ := decryptMessage_cases c n x s hn <;> rw [he]
  · exact .inr (.inr rfl)
  · rcases heng with rfl | rfl
    · exact .inl rfl
    · exact .inr (.inl rfl)

end

/-- Settles O32: the statuses of each command's cases; a unit operation writes no `STATUS` (R15). -/
theorem eachCommandReportsItsStatuses : Obligations.EachCommandReportsItsStatuses := by
  intro i s t h
  cases i with
  | initMsg x => cases h; exact initMessage_status _ s x
  | auth len => cases h; exact authenticate_status _ s _
  | crypt len => cases h; exact crypt_status _ s _
  | finalTag => cases h; exact finalizeTag_status _ s
  | encMsg len x => cases h; exact encryptMessage_status _ s _ x len.isLt
  | decMsg len x => cases h; exact decryptMessage_status _ s _ x len.isLt
  | initKey _ | wipe | gfDbl _ | subkey | macStart _ | macAbsorb _ _ | macFinish _ | ctrSeed _ | ctrApply _
  | ctrInc _ => cases h; rfl

theorem initMessage_idem (c : Cipher) (x : Nonce) (s : State) :
    initMessage c x (initMessage c x s) = initMessage c x s := by
  obtain ⟨hp, he⟩ | ⟨hp, he⟩ := initMessage_cases c x s
  · rw [he, initMessage_refused c (s.fail .errUsage) x hp]
    rfl
  · rw [he, initMessage_engine _ _ _ Phase.noConfusion]
    rfl

/-- Settles O33: each of the three commands writes what it writes from its operand and from elements it keeps. -/
theorem initialisationIsIdempotent : Obligations.InitialisationIsIdempotent := by
  rintro i s t (⟨key, rfl⟩ | ⟨x, rfl⟩ | rfl) h <;> cases h
  · rfl
  · exact (exec_initMsg x _).trans (congrArg _ (initMessage_idem _ x s))
  · rfl

/-- The elements that hold the key: the key schedule and the padding pair (R21, R22). -/
def Engine.keyMaterial (e : Engine) : Option KeySchedule × Block × Block := (e.ks, e.padFull, e.padPartial)

theorem Engine.keyMaterial_eq_iff {e f : Engine} : e.keyMaterial = f.keyMaterial ↔
    e.ks = f.ks ∧ e.padFull = f.padFull ∧ e.padPartial = f.padPartial := by
  simp [Engine.keyMaterial]

section
variable (c : Cipher) (s : State) (n : Nat) (x : Nonce)

@[simp] theorem initMessage_keyMaterial : (initMessage c x s).eng.keyMaterial = s.eng.keyMaterial := by
  obtain ⟨-, he⟩ | ⟨-, he⟩ := initMessage_cases c x s <;> rw [he] <;> rfl

@[simp] theorem authenticate_keyMaterial : (authenticate c n s).eng.keyMaterial = s.eng.keyMaterial := by
  obtain ⟨-, he⟩ | ⟨-, he⟩ := authenticate_cases c n s <;> rw [he] <;> rfl

@[simp] theorem crypt_keyMaterial : (crypt c n s).eng.keyMaterial = s.eng.keyMaterial := by
  obtain ⟨-, he⟩ | ⟨-, he⟩ := crypt_cases c n s <;> rw [he] <;> rfl

@[simp] theorem finalizeTag_keyMaterial : (finalizeTag c s).eng.keyMaterial = s.eng.keyMaterial := by
  obtain ⟨-, he⟩ | ⟨-, _, _, _, -, he⟩ := finalizeTag_cases c s <;> rw [he] <;> rfl

@[simp] theorem encryptMessage_keyMaterial (hn : n < 2 ^ 32) :
    (encryptMessage c n x s).eng.keyMaterial = s.eng.keyMaterial := by
  obtain ⟨-, he⟩ | ⟨-, _, he⟩ := encryptMessage_cases c n x s hn <;> rw [he] <;> rfl

@[simp] theorem decryptMessage_keyMaterial (hn : n < 2 ^ 32) :
    (decryptMessage c n x s).eng.keyMaterial = s.eng.keyMaterial := by
  obtain ⟨-, he⟩ | ⟨-, _, _, _, heng, he⟩ := decryptMessage_cases c n x s hn <;> rw [he]
  · rfl
  · rcases heng with rfl | rfl <;> rfl

end

theorem exec_keyMaterial {i : Instr} {s t : State} (h : exec i s = .next t) (hkey : ∀ key, i ≠ .initKey key)
    (hwipe : i ≠ .wipe) (hsubkey : i ≠ .subkey) : t.eng.keyMaterial = s.eng.keyMaterial := by
  cases i with
  | initKey key => exact absurd rfl (hkey key)
  | wipe => exact absurd rfl hwipe
  | subkey => exact absurd rfl hsubkey
  | initMsg x => cases h; exact initMessage_keyMaterial _ s x
  | auth len => cases h; exact authenticate_keyMaterial _ s _
  | crypt len => cases h; exact crypt_keyMaterial _ s _
  | finalTag => cases h; exact finalizeTag_keyMaterial _ s
  | encMsg len x => cases h; exact encryptMessage_keyMaterial _ s _ x len.isLt
  | decMsg len x => cases h; exact decryptMessage_keyMaterial _ s _ x len.isLt
  | gfDbl _ | macStart _ | macAbsorb _ _ | macFinish _ | ctrSeed _ | ctrApply _ | ctrInc _ => cases h; rfl

/-- Settles O34: `SUBKEY` keeps the key schedule, and every other command the padding pair too. -/
theorem keyMaterialIsWrittenByKeyCommandsOnly : Obligations.KeyMaterialIsWrittenByKeyCommandsOnly := by
  intro i s t h hkey hwipe
  by_cases hsubkey : i = .subkey
  · subst hsubkey
    cases h
    exact ⟨rfl, fun hne => absurd rfl hne⟩
  · obtain ⟨hks, hpads⟩ := Engine.keyMaterial_eq_iff.1 (exec_keyMaterial h hkey hwipe hsubkey)
    exact ⟨hks, fun _ => hpads⟩

end Sys2Proof.Machine
end

section
/-! Chunks and their order (43_session.md, section 8, "Interleaving"): `AUTH` and `CRYPT` as functions of the engine. -/

namespace Sys2Proof.Machine

section
variable (c : Cipher) (e : Engine)

/-- The phase after one chunk in a message and then another (R185). -/
theorem chunkPhase_add (p : Phase) (a b : Nat) :
    (if b = 0 then (if a = 0 then p else .streaming) else .streaming) = if a + b = 0 then p else .streaming := by
  by_cases ha : a = 0 <;> by_cases hb : b = 0 <;> simp [ha, hb]

theorem Engine.authChunk_append (a b : List Byte) :
    (e.authChunk c a).authChunk c b = e.authChunk c (a ++ b) := by
  simp only [Engine.authChunk, List.length_append, macAbsorb_append, chunkPhase_add]
  rfl

theorem Engine.cryptChunk_add (a b : Nat) : (e.cryptChunk c a).cryptChunk c b = e.cryptChunk c (a + b) := by
  simp only [Engine.cryptChunk, ctrAdvance_add, chunkPhase_add]
  rfl

theorem Engine.authChunk_cryptChunk (d : List Byte) (n : Nat) :
    (e.authChunk c d).cryptChunk c n = (e.cryptChunk c n).authChunk c d := by
  simp only [Engine.authChunk, Engine.cryptChunk, chunkPhase_add, Nat.add_comm]
  rfl

theorem chunkPhase_inMessage {p : Phase} (h : p = .messageReady ∨ p = .streaming) (n : Nat) :
    (if n = 0 then p else .streaming) = .messageReady ∨ (if n = 0 then p else .streaming) = .streaming := by
  split
  · exact h
  · exact .inr rfl

theorem Engine.authChunk_cnt (d : List Byte) : (e.authChunk c d).mac.cnt = e.mac.cnt + d.length := macAbsorb_cnt _ _ _

theorem Engine.cryptChunk_ccnt (n : Nat) : (e.cryptChunk c n).ctr.ccnt = e.ctr.ccnt + n := ctrAdvance_ccnt _ _ _

end

section
variable {s : State} (len : Len) (hphase : s.eng.phase = .messageReady ∨ s.eng.phase = .streaming)
include hphase

theorem exec_auth_accepted (hrange : s.eng.mac.cnt + len.toNat < 2 ^ 32) : ∃ t, exec (.auth len) s = .next t ∧
    t.eng = s.eng.authChunk Config.cipher (s.buf.readBytes 0 len.toNat) ∧ t.buf = s.buf := by
  refine ⟨_, (exec_auth len s).trans (congrArg _ (authenticate_accepted _ _ _ hphase hrange)), ?_, rfl⟩
  rw [Engine.authChunk, Memory.readBytes_length]

theorem exec_crypt_accepted (hrange : s.eng.ctr.ccnt + len.toNat < 2 ^ 32) : ∃ t, exec (.crypt len) s = .next t ∧
    t.eng = s.eng.cryptChunk Config.cipher len.toNat ∧
    t.buf = s.buf.writeBytes 0 (ctrOutput s.E s.eng.ctr (s.buf.readBytes 0 len.toNat)) :=
  ⟨_, (exec_crypt len s).trans (congrArg _ (crypt_accepted _ _ _ hphase hrange)), rfl, rfl⟩

end

/-- Settles O35: the absorption of the second chunk goes on from that of the first (R140). -/
theorem authChunksAreOneChunk : Obligations.AuthChunksAreOneChunk := by
  intro s l1 l2 l m1 m2 m hphase hlen hrange hbytes
  obtain ⟨t1, h1, he1, -⟩ := exec_auth_accepted (s := { s with buf := m1 }) l1 hphase
    (show s.eng.mac.cnt + l1.toNat < 2 ^ 32 by omega)
  have hphase1 := chunkPhase_inMessage hphase (m1.readBytes 0 l1.toNat).length
  have hcnt1 := Engine.authChunk_cnt Config.cipher s.eng (m1.readBytes 0 l1.toNat)
  rw [Memory.readBytes_length] at hcnt1
  obtain ⟨t2, h2, he2, -⟩ := exec_auth_accepted (s := { t1 with buf := m2 }) l2 (he1 ▸ hphase1)
    (show t1.eng.mac.cnt + l2.toNat < 2 ^ 32 by rw [he1, hcnt1]; omega)
  obtain ⟨t, h, he, -⟩ := exec_auth_accepted (s := { s with buf := m }) l hphase hrange
  refine ⟨t1, t2, t, h1, h2, h, ?_, by rw [he]; rfl⟩
  rw [he2, he, hbytes, ← Engine.authChunk_append, he1]

/-- Reading back what `CRYPT` wrote (R13, R179). -/
theorem readBytes_cryptOutput (E : Block → Block) (r : CtrState) (m : Memory) (n : Nat) :
    (m.writeBytes 0 (ctrOutput E r (m.readBytes 0 n))).readBytes 0 n = ctrOutput E r (m.readBytes 0 n) := by
  have hback := Memory.readBytes_writeBytes m 0 (ctrOutput E r (m.readBytes 0 n))
  rwa [ctrOutput_length, Memory.readBytes_length] at hback

/-- Settles O36: the keystream of the second chunk goes on from the registers that the first left (R163). -/
theorem cryptChunksAreOneChunk : Obligations.CryptChunksAreOneChunk := by
  intro s l1 l2 l m1 m2 m hphase hlen hrange hbytes
  obtain ⟨t1, h1, he1, hb1⟩ := exec_crypt_accepted (s := { s with buf := m1 }) l1 hphase
    (show s.eng.ctr.ccnt + l1.toNat < 2 ^ 32 by omega)
  have hphase1 := chunkPhase_inMessage hphase l1.toNat
  have hcnt1 := Engine.cryptChunk_ccnt Config.cipher s.eng l1.toNat
  obtain ⟨t2, h2, he2, hb2⟩ := exec_crypt_accepted (s := { t1 with buf := m2 }) l2 (he1 ▸ hphase1)
    (show t1.eng.ctr.ccnt + l2.toNat < 2 ^ 32 by rw [he1, hcnt1]; omega)
  obtain ⟨t, h, he, hb⟩ := exec_crypt_accepted (s := { s with buf := m }) l hphase hrange
  refine ⟨t1, t2, t, h1, h2, h, ?_, by rw [he]; rfl, ?_⟩
  · rw [he2, he, hlen, ← Engine.cryptChunk_add, he1]
  · rw [hb, hb1, hb2, readBytes_cryptOutput, readBytes_cryptOutput, readBytes_cryptOutput, hbytes, ctrOutput_append,
      Memory.readBytes_length]
    simp only [State.E, he1]
    rfl

/-- Settles O37: `AUTH` writes the MAC registers and `CRYPT` the CTR registers, and neither reads those of the other. -/
theorem authAndCryptCommute : Obligations.AuthAndCryptCommute := by
  intro s la lc ma mc hphase hauth hcrypt
  obtain ⟨a1, h1, he1, -⟩ := exec_auth_accepted (s := { s with buf := ma }) la hphase hauth
  have hphase1 := chunkPhase_inMessage hphase (ma.readBytes 0 la.toNat).length
  obtain ⟨a2, h2, he2, hb2⟩ := exec_crypt_accepted (s := { a1 with buf := mc }) lc (he1 ▸ hphase1)
    (show a1.eng.ctr.ccnt + lc.toNat < 2 ^ 32 by rwa [he1])
  obtain ⟨b1, h3, he3, hb3⟩ := exec_crypt_accepted (s := { s with buf := mc }) lc hphase hcrypt
  have hphase3 := chunkPhase_inMessage hphase lc.toNat
  obtain ⟨b2, h4, he4, -⟩ := exec_auth_accepted (s := { b1 with buf := ma }) la (he3 ▸ hphase3)
    (show b1.eng.mac.cnt + la.toNat < 2 ^ 32 by rwa [he3])
  refine ⟨a1, a2, b1, b2, h1, h2, h3, h4, ?_, ?_⟩
  · rw [he2, he4, he1, he3, Engine.authChunk_cryptChunk]
  · rw [hb2, hb3]
    simp only [State.E, he1]
    rfl

end Sys2Proof.Machine
end

section
/-! `MessageReady` and `Streaming` answer alike (10_state.md, section 8; 43_session.md, section 8, "Entering
`Streaming`"). -/

namespace Sys2Proof.Machine

/-- The state with another phase. -/
def State.withPhase (p : Phase) (s : State) : State := { s with eng := { s.eng with phase := p } }

theorem sameButStreaming_iff {s t : State} : sameButStreaming s t ↔
    s = t ∨ (s.eng.phase.inMessage = true ∧ ∃ p, p.inMessage = true ∧ t = s.withPhase p) := by
  refine or_congr_right (and_congr_right fun _ => ⟨fun ⟨ht, hp⟩ => ⟨_, hp, ht⟩, ?_⟩)
  rintro ⟨p, hp, rfl⟩
  exact ⟨rfl, hp⟩

/-- The host does not see the phase (R41). -/
theorem observed_eq_of_sameButStreaming {s t : State} (h : sameButStreaming s t) : s.observed = t.observed := by
  obtain rfl | ⟨-, p, -, rfl⟩ := sameButStreaming_iff.1 h <;> rfl

theorem Phase.ne_uninitialized_of_inMessage {p : Phase} (h : p.inMessage = true) : p ≠ .uninitialized := by
  rintro rfl
  cases h

section
variable (c : Cipher) (n : Nat) (x : Nonce) {s : State} {p : Phase}
variable (hs : s.eng.phase.inMessage = true) (hp : p.inMessage = true)
include hs hp

theorem initMessage_withPhase : initMessage c x (s.withPhase p) = initMessage c x s := by
  rw [initMessage_engine c s x (Phase.ne_uninitialized_of_inMessage hs),
    initMessage_engine c (s.withPhase p) x (Phase.ne_uninitialized_of_inMessage hp)]
  rfl

/-- A chunk leaves the difference, where it is refused or empty, or enters `Streaming` from both phases (R185). -/
theorem authenticate_withPhase : sameButStreaming (authenticate c n s) (authenticate c n (s.withPhase p)) := by
  rw [sameButStreaming_iff]
  have hs' := (Phase.inMessage_iff _).1 hs
  have hp' := (Phase.inMessage_iff p).1 hp
  by_cases hrange : s.eng.mac.cnt + n < 2 ^ 32
  · by_cases hn : n = 0
    · subst hn
      rw [authenticate_empty c s hs' hrange, authenticate_empty c (s.withPhase p) hp' hrange]
      exact .inr ⟨hs, p, hp, rfl⟩
    · rw [authenticate_chunk c s n hs' hrange hn, authenticate_chunk c (s.withPhase p) n hp' hrange hn]
      exact .inl rfl
  · rw [authenticate_refused c s n (.inr (not_lt.1 hrange)),
      authenticate_refused c (s.withPhase p) n (.inr (not_lt.1 hrange))]
    exact .inr ⟨hs, p, hp, rfl⟩

theorem crypt_withPhase : sameButStreaming (crypt c n s) (crypt c n (s.withPhase p)) := by
  rw [sameButStreaming_iff]
  have hs' := (Phase.inMessage_iff _).1 hs
  have hp' := (Phase.inMessage_iff p).1 hp
  by_cases hrange : s.eng.ctr.ccnt + n < 2 ^ 32
  · by_cases hn : n = 0
    · subst hn
      rw [crypt_empty c s hs' hrange, crypt_empty c (s.withPhase p) hp' hrange]
      exact .inr ⟨hs, p, hp, rfl⟩
    · rw [crypt_chunk c s n hs' hrange hn, crypt_chunk c (s.withPhase p) n hp' hrange hn]
      exact .inl rfl
  · rw [crypt_refused c s n (.inr (not_lt.1 hrange)), crypt_refused c (s.withPhase p) n (.inr (not_lt.1 hrange))]
    exact .inr ⟨hs, p, hp, rfl⟩

theorem finalizeTag_withPhase : finalizeTag c (s.withPhase p) = finalizeTag c s := by
  have hs' := (Phase.inMessage_iff _).1 hs
  have hp' := (Phase.inMessage_iff p).1 hp
  by_cases hcount : s.eng.mac.cnt = s.eng.ctr.ccnt ∨ s.eng.ctr.ccnt = 0
  · rw [finalizeTag_tag c s hs' hcount, finalizeTag_tag c (s.withPhase p) hp' hcount]
    rfl
  · obtain ⟨hne, hpos⟩ := not_or.1 hcount
    rw [finalizeTag_errCount c s hs' hne (Nat.pos_of_ne_zero hpos),
      finalizeTag_errCount c (s.withPhase p) hp' hne (Nat.pos_of_ne_zero hpos)]
    rfl

/-- The whole-message commands begin with `INIT_MSG`, which enters `MessageReady` from both phases (R210). -/
theorem encryptMessage_withPhase : encryptMessage c n x (s.withPhase p) = encryptMessage c n x s := by
  have hkey := (Phase.hasKey_iff _).2 (Phase.ne_uninitialized_of_inMessage hs)
  have hkey' := (Phase.hasKey_iff _).2 (Phase.ne_uninitialized_of_inMessage hp)
  rw [encryptMessage, encryptMessage, if_pos hkey, initMessage_withPhase c x hs hp]
  exact if_pos hkey'

theorem decryptMessage_withPhase : decryptMessage c n x (s.withPhase p) = decryptMessage c n x s := by
  have hkey := (Phase.hasKey_iff _).2 (Phase.ne_uninitialized_of_inMessage hs)
  have hkey' := (Phase.hasKey_iff _).2 (Phase.ne_uninitialized_of_inMessage hp)
  rw [decryptMessage, decryptMessage, if_pos hkey, initMessage_withPhase c x hs hp]
  exact if_pos hkey'

theorem exec_withPhase {i : Instr} (hi : i.hostIssuable = true) :
    ∃ s' t', exec i s = .next s' ∧ exec i (s.withPhase p) = .next t' ∧ sameButStreaming s' t' := by
  cases i with
  | initKey key => exact ⟨_, _, exec_initKey key s, exec_initKey key _, .inl rfl⟩
  | wipe => exact ⟨_, _, exec_wipe s, exec_wipe _, .inl rfl⟩
  | initMsg x => exact ⟨_, _, exec_initMsg x s, exec_initMsg x _, .inl (initMessage_withPhase _ x hs hp).symm⟩
  | auth len => exact ⟨_, _, exec_auth len s, exec_auth len _, authenticate_withPhase _ _ hs hp⟩
  | crypt len => exact ⟨_, _, exec_crypt len s, exec_crypt len _, crypt_withPhase _ _ hs hp⟩
  | finalTag => exact ⟨_, _, exec_finalTag s, exec_finalTag _, .inl (finalizeTag_withPhase _ hs hp).symm⟩
  | encMsg len x =>
    exact ⟨_, _, exec_encMsg len x s, exec_encMsg len x _, .inl (encryptMessage_withPhase _ _ x hs hp).symm⟩
  | decMsg len x =>
    exact ⟨_, _, exec_decMsg len x s, exec_decMsg len x _, .inl (decryptMessage_withPhase _ _ x hs hp).symm⟩
  | gfDbl _ | subkey | macStart _ | macAbsorb _ _ | macFinish _ | ctrSeed _ | ctrApply _ | ctrInc _ => cases hi

end

/-- Settles O38: every session command keeps the difference in the phase, or ends it, and the host sees no phase. -/
theorem messageReadyAndStreamingAreIndistinguishable : Obligations.MessageReadyAndStreamingAreIndistinguishable := by
  intro i s t hi h
  obtain rfl | ⟨hs, p, hp, rfl⟩ := sameButStreaming_iff.1 h
  · obtain ⟨s', hexec⟩ := exec_next s i
    exact ⟨s', s', hexec, hexec, rfl, .inl rfl⟩
  · obtain ⟨s', t', hexec, hexec', hsame⟩ := exec_withPhase hs hp hi
    exact ⟨s', t', hexec, hexec', observed_eq_of_sameButStreaming hsame, hsame⟩

end Sys2Proof.Machine
end

section
/-! Whole messages in closed form (43_session.md, section 6; 44_whole_message.md): the tag as OMAC, `ENC_MSG`, and
`DEC_MSG` on what `ENC_MSG` left. -/

namespace Sys2Proof.Machine

section
variable (c : Cipher) (n : Nat) (x : Nonce) (d : List Byte) (e : Engine)

/-- `N` is OMAC with tweak 0 of the nonce (R177). -/
theorem nonceMac_eq_omac : nonceMac c e x = omac (e.encrypt c) e.padFull e.padPartial 0 (toBytes x) :=
  macIsOmacOfTweakBlockAndMessage c e 0 (toBytes x)

/-- The bytes of a tag over `d` (R180, R187). -/
theorem byteOf_messageTag_of_absorbed (h : e.mac = macAbsorb (e.encrypt c) (macStart 2) d) {i : Nat} (hi : i < 4) :
    byteOf (messageTag c e) i = byteOf (omac (e.encrypt c) e.padFull e.padPartial 2 d) i ^^^ byteOf e.n i := by
  rw [byteOf_messageTag c e hi, h, macIsOmacOfTweakBlockAndMessage]

/-- The tag at the end of a message is that of its authenticated bytes (R180). -/
theorem byteOf_messageEnd_tag {i : Nat} (hi : i < 4) : byteOf (messageEnd c n x d e).tag i =
    byteOf (omac (e.encrypt c) e.padFull e.padPartial 2 d) i ^^^ byteOf (messageEnd c n x d e).n i :=
  byteOf_messageTag_of_absorbed c d (messageEngine c x n d .streaming e) rfl hi

/-- What a message ends with depends on the key material, the nonce and the authenticated bytes alone. -/
theorem messageEnd_congr {e f : Engine} (h : e.keyMaterial = f.keyMaterial) :
    messageEnd c n x d e = messageEnd c n x d f := by
  obtain ⟨hks, hfull, hpartial⟩ := Engine.keyMaterial_eq_iff.1 h
  simp only [messageEnd, nonceMac_congr c hks hfull hpartial, Engine.encrypt_congr c hks,
    Engine.macFinish_congr c hks hfull hpartial, hks, hfull, hpartial]

end

/-- Settles O39: `FINAL_TAG` makes the tag of the accumulator, which holds OMAC of the absorbed bytes (R180, R191). -/
theorem tagIsOmacOfTheAuthenticatedBytes : Obligations.TagIsOmacOfTheAuthenticatedBytes := by
  intro s d hphase hmac hcount
  have hcnt : s.eng.mac.cnt = d.length := by
    rw [hmac, macAbsorb_cnt]
    exact Nat.zero_add _
  have htag := finalizeTag_tag Config.cipher s hphase (hcnt ▸ hcount.imp_left Eq.symm)
  refine ⟨_, (exec_finalTag s).trans (congrArg _ htag), rfl, ?_,
    fun i hi => byteOf_messageTag_of_absorbed _ d s.eng hmac hi⟩
  simp only [hcnt, eq_comm]

/-- Byte `k` of the ciphertext (R161, R210). -/
theorem cipherBytes_getElem (c : Cipher) (n : Nat) (x : Nonce) (s : State) {k : Nat}
    (hk : k < (cipherBytes c n x s).length) : (cipherBytes c n x s)[k] =
      s.buf.read k ^^^ keystreamByte (s.eng.encrypt c) (nonceMac c s.eng x) k := by
  simp only [cipherBytes, ctrOutput_getElem, ctrKeyByte_ctrSeed, Memory.readBytes_getElem, Nat.zero_add]

section
variable (c : Cipher) (n : Nat) (x : Nonce) (s : State) (t : Tag)

/-- The buffer that `ENC_MSG` leaves: the ciphertext and then the tag (R210). -/
def sealedBuffer (c : Cipher) (n : Nat) (x : Nonce) (s : State) : Memory :=
  (s.buf.writeBytes 0 (cipherBytes c n x s)).writeBytes n (toBytes (sealedEngine c n x s).tag)

theorem readBytes_sealedBuffer : (sealedBuffer c n x s).readBytes 0 n = cipherBytes c n x s := by
  rw [sealedBuffer, Memory.readBytes_writeBytes_apart _ _ _ _ _ (.inl (by omega)), readBytes_cipherBytes]

theorem read_sealedBuffer_message {k : Nat} (hk : k < n) : (sealedBuffer c n x s).read k =
    s.buf.read k ^^^ keystreamByte (s.eng.encrypt c) (nonceMac c s.eng x) k := by
  have hread := Memory.readBytes_getElem (sealedBuffer c n x s) 0 n k (by simpa using hk)
  rw [Nat.zero_add] at hread
  simp only [← hread, readBytes_sealedBuffer, cipherBytes_getElem]

theorem read_sealedBuffer_tag {i : Nat} (hi : i < 4) :
    (sealedBuffer c n x s).read (n + i) = byteOf (sealedEngine c n x s).tag i :=
  Memory.read_writeBytes_toBytes _ _ _ hi

theorem read_sealedBuffer_rest {a : Nat} (ha : n + 4 ≤ a) : (sealedBuffer c n x s).read a = s.buf.read a := by
  rw [sealedBuffer, Memory.read_writeBytes_apart _ (.inr (by simpa using ha)),
    Memory.read_writeBytes_apart _ (.inr (by rw [cipherBytes_length]; omega))]

end

section
variable (len : Len) (nonce : Nonce) {s : State} (h : s.eng.phase ≠ .uninitialized)
include h

theorem exec_encMsg_accepted : ∃ t, exec (.encMsg len nonce) s = .next t ∧
    t.eng = sealedEngine Config.cipher len.toNat nonce s ∧ t.buf = sealedBuffer Config.cipher len.toNat nonce s :=
  ⟨_, (exec_encMsg len nonce s).trans (congrArg _ (encryptMessage_accepted _ _ _ _ h len.isLt)), rfl, rfl⟩

/-- `DEC_MSG` accepted, by whether the four bytes after the message are its tag (R212, R215, R216). -/
theorem exec_decMsg_accepted : ∃ t, exec (.decMsg len nonce) s = .next t ∧
    t.buf = s.buf.writeBytes 0 (plainBytes Config.cipher len.toNat nonce s) ∧
    ((∀ i < 4, s.buf.read (len.toNat + i) = byteOf (openedEngine Config.cipher len.toNat nonce s).tag i) →
      t.eng = openedEngine Config.cipher len.toNat nonce s ∧
      t.result = .plain (plainBytes Config.cipher len.toNat nonce s)) ∧
    ((∃ i < 4, s.buf.read (len.toNat + i) ≠ byteOf (openedEngine Config.cipher len.toNat nonce s).tag i) →
      t.eng = { openedEngine Config.cipher len.toNat nonce s with tag := 0, status := .errAuth } ∧
      t.result = .authenticationError) := by
  have hcompare := tagDifference_readBytes_eq_zero (openedEngine Config.cipher len.toNat nonce s).tag s.buf len.toNat
  refine ⟨_, (exec_decMsg len nonce s).trans (congrArg _ (decryptMessage_accepted _ _ _ _ h len.isLt)), rfl,
    fun hagree => ?_, fun hdiffer => ?_⟩
  · have hzero := hcompare.2 hagree
    exact ⟨if_pos hzero, if_pos hzero⟩
  · have hnonzero := mt hcompare.1 (by simpa using hdiffer)
    exact ⟨if_neg hnonzero, if_neg hnonzero⟩

end

/-- Settles O43: `N` and the tag are OMAC in closed form (O18), and the keystream from `N` is the counter sequence
(O22). -/
theorem encMsgIsCtrThenOmac : Obligations.EncMsgIsCtrThenOmac := by
  intro len nonce s h
  obtain ⟨t, hexec, heng, hbuf⟩ := exec_encMsg_accepted len nonce h
  have hn : t.eng.n = nonceMac Config.cipher s.eng nonce := by rw [heng]; rfl
  refine ⟨t, hexec, by rw [heng]; rfl, hn.trans (nonceMac_eq_omac _ _ _), fun k hk => ?_, fun i hi => ?_,
    fun a ha => ?_⟩
  · rw [hbuf, hn, read_sealedBuffer_message _ _ _ _ hk]
  · rw [hbuf, heng, readBytes_sealedBuffer, read_sealedBuffer_tag _ _ _ _ hi, byteOf_messageEnd_tag _ _ _ _ _ hi]
  · rw [hbuf, read_sealedBuffer_rest _ _ _ _ ha]

section
variable (c : Cipher) (n : Nat) (x : Nonce) {s u : State}
variable (hbytes : ∀ a < n, u.buf.read a = (sealedBuffer c n x s).read a)
include hbytes

theorem readBytes_of_sealed : u.buf.readBytes 0 n = cipherBytes c n x s := by
  rw [← readBytes_sealedBuffer]
  exact Memory.readBytes_congr fun a _ ha => hbytes a (by omega)

variable (hkey : u.eng.keyMaterial = s.eng.keyMaterial)
include hkey

/-- The receiver of a ciphertext reaches the engine state of its sender before the comparison (R212). -/
theorem openedEngine_of_sealed : openedEngine c n x u = sealedEngine c n x s := by
  rw [openedEngine, readBytes_of_sealed c n x hbytes, messageEnd_congr c n x _ hkey]

/-- The receiver's keystream is the sender's, so it restores the plaintext (R162). -/
theorem plainBytes_of_sealed : plainBytes c n x u = s.buf.readBytes 0 n := by
  obtain ⟨hks, hfull, hpartial⟩ := Engine.keyMaterial_eq_iff.1 hkey
  rw [plainBytes, cipherBytes, readBytes_of_sealed c n x hbytes, cipherBytes, Engine.encrypt_congr c hks,
    nonceMac_congr c hks hfull hpartial, ctrOutput_selfInverse]

end

/-- Settles O44: the receiver reaches the sender's engine state, so the tags agree, and the keystream cancels. -/
theorem decMsgInvertsEncMsg : Obligations.DecMsgInvertsEncMsg := by
  intro len nonce s h
  obtain ⟨t, hexec, heng, hbuf⟩ := exec_encMsg_accepted len nonce h
  refine ⟨t, hexec, by rw [heng]; rfl, fun u hu hks hfull hpartial hbytes => ?_⟩
  rw [hbuf] at hbytes
  have hkey := Engine.keyMaterial_eq_iff.2 ⟨hks, hfull, hpartial⟩
  have hmessage := fun a (ha : a < len.toNat) => hbytes a (by omega)
  have hopened := openedEngine_of_sealed _ _ _ hmessage hkey
  have hplain := plainBytes_of_sealed _ _ _ hmessage hkey
  obtain ⟨v, hexecv, hbufv, hmatch, -⟩ := exec_decMsg_accepted len nonce hu
  obtain ⟨hengv, hresult⟩ := hmatch fun i hi => by
    rw [hbytes _ (by omega), hopened, read_sealedBuffer_tag _ _ _ _ hi]
  refine ⟨v, hexecv, by rw [hengv]; rfl, by rw [hresult, hplain], ?_, by rw [hengv, hopened, heng]; rfl⟩
  rw [hbufv, plainBytes, readBytes_cipherBytes, ← hplain]

/-- Settles O45: the receiver computes the sender's tag, with which the altered one does not agree. -/
theorem alteredTagIsDetected : Obligations.AlteredTagIsDetected := by
  intro len nonce s h
  obtain ⟨t, hexec, heng, hbuf⟩ := exec_encMsg_accepted len nonce h
  refine ⟨t, hexec, by rw [heng]; rfl, fun u hu hks hfull hpartial hmessage ⟨i, hi, hne⟩ => ?_⟩
  rw [hbuf] at hmessage hne
  have hopened := openedEngine_of_sealed _ _ _ hmessage (Engine.keyMaterial_eq_iff.2 ⟨hks, hfull, hpartial⟩)
  obtain ⟨v, hexecv, -, -, hmismatch⟩ := exec_decMsg_accepted len nonce hu
  obtain ⟨hengv, hresult⟩ := hmismatch ⟨i, hi, by rwa [hopened, ← read_sealedBuffer_tag _ _ _ _ hi]⟩
  exact ⟨v, hexecv, by rw [hengv], by rw [hengv], hresult, by rw [hengv]; rfl⟩

end Sys2Proof.Machine
end

section
/-! The operand buffer under the commands (20_memory.md): its length, the accesses in order, and what the whole-message
commands leave of it. -/

namespace Sys2Proof.Machine

theorem operandLength_of_command {d : List Byte} {i : Instr} (h : decode d = .command i) :
    operandLength d = bufferLength i := by
  rw [operandLength, h]

/-- What every `MemWrite` below the buffer's length keeps, every command keeps (R13, R70). -/
theorem exec_buf_of_writes {P : Memory → Prop} {i : Instr} {s t : State} (h : exec i s = .next t) (hs : P s.buf)
    (hw : ∀ m off v, off + v.length ≤ bufferLength i → P m → P (m.writeBytes off v)) : P t.buf := by
  cases i with
  | initMsg x =>
    cases h
    obtain ⟨-, he⟩ | ⟨-, he⟩ := initMessage_cases Config.cipher x s <;> rwa [he]
  | auth len =>
    cases h
    obtain ⟨-, he⟩ | ⟨-, he⟩ := authenticate_cases Config.cipher len.toNat s <;> rwa [he]
  | crypt len =>
    cases h
    obtain ⟨-, he⟩ | ⟨-, he⟩ := crypt_cases Config.cipher len.toNat s <;> rw [he]
    · exact hs
    · exact hw _ _ _ (by simp [bufferLength]) hs
  | finalTag =>
    cases h
    obtain ⟨-, he⟩ | ⟨-, _, _, _, -, he⟩ := finalizeTag_cases Config.cipher s <;> rwa [he]
  | encMsg len x =>
    cases h
    obtain ⟨-, he⟩ | ⟨-, _, he⟩ := encryptMessage_cases Config.cipher len.toNat x s len.isLt <;> rw [he]
    · exact hs
    · exact hw _ _ _ (by simp [bufferLength]) (hw _ _ _ (by simp [bufferLength, cipherBytes_length]) hs)
  | decMsg len x =>
    cases h
    obtain ⟨-, he⟩ | ⟨-, _, _, _, -, he⟩ := decryptMessage_cases Config.cipher len.toNat x s len.isLt <;> rw [he]
    · exact hs
    · exact hw _ _ _ (by simp [bufferLength, cipherBytes_length]) hs
  | initKey _ | wipe | gfDbl _ | subkey | macStart _ | macAbsorb _ _ | macFinish _ | ctrSeed _ | ctrApply _
  | ctrInc _ => cases h; exact hs

/-- Bytes at and past the buffer's length are never written (R70). -/
theorem exec_read_past_length {i : Instr} {s t : State} (h : exec i s = .next t) {a : Nat} (ha : bufferLength i ≤ a) :
    t.buf.read a = s.buf.read a := by
  refine exec_buf_of_writes (P := fun m => m.read a = s.buf.read a) h rfl fun m off v hv hm => ?_
  rw [Memory.read_writeBytes_apart _ (.inr (by omega)), hm]

/-- `DEC_MSG` writes no byte of the received tag (R70, R216). -/
theorem decryptMessage_read_past_message (c : Cipher) {n : Nat} (hn : n < 2 ^ 32) (x : Nonce) (s : State) {a : Nat}
    (ha : n ≤ a) : (decryptMessage c n x s).buf.read a = s.buf.read a := by
  obtain ⟨-, he⟩ | ⟨-, _, _, _, -, he⟩ := decryptMessage_cases c n x s hn <;> rw [he]
  · rfl
  · exact Memory.read_writeBytes_apart _ (.inr (by rw [cipherBytes_length]; omega))

/-- Settles O46: neither command is among those that write the key material, or writes the buffer past its part. -/
theorem wholeMessageCommandsKeepTheirFrame : Obligations.WholeMessageCommandsKeepTheirFrame := by
  intro len nonce s
  have frame : ∀ i t, (∀ key, i ≠ .initKey key) → i ≠ .wipe → i ≠ .subkey → exec i s = .next t →
      t.eng.ks = s.eng.ks ∧ t.eng.padFull = s.eng.padFull ∧ t.eng.padPartial = s.eng.padPartial :=
    fun i t hkey hwipe hsubkey h => Engine.keyMaterial_eq_iff.1 (exec_keyMaterial h hkey hwipe hsubkey)
  have henc := exec_encMsg len nonce s
  have hdec := exec_decMsg len nonce s
  obtain ⟨hks, hfull, hpartial⟩ := frame _ _ (by simp) (by simp) (by simp) henc
  obtain ⟨hks', hfull', hpartial'⟩ := frame _ _ (by simp) (by simp) (by simp) hdec
  exact ⟨⟨_, henc, hks, hfull, hpartial, exec_pending henc, fun a ha => exec_read_past_length henc ha⟩,
    ⟨_, hdec, hks', hfull', hpartial', exec_pending hdec,
      fun a ha => decryptMessage_read_past_message _ len.isLt _ s ha⟩⟩

/-! ### The accesses and the encryptions of each command's events (R70, R81) -/

section
variable (c : Cipher) (n : Nat) (x : Nonce) (e : Engine) (E : Block → Block)

theorem bufferAccesses_nonceTrace : bufferAccesses (nonceTrace c e x) = [] := bufferAccesses_encryptEvents _

theorem bufferAccesses_finalTrace (d : List Byte) : bufferAccesses (finalTrace c d e) = [] :=
  bufferAccesses_encryptEvents _

/-- The buffer accesses of an authenticated chunk (R178, R184). -/
theorem bufferAccesses_authEvents (inputs : List Block) :
    bufferAccesses (if n = 0 then [] else .memRead 0 n :: encryptEvents inputs) =
      if n = 0 then [] else [.memRead 0 n] := by
  split <;> simp

/-- The buffer accesses of an encrypted or decrypted chunk (R179, R184). -/
theorem bufferAccesses_cryptEvents (inputs : List Block) :
    bufferAccesses (if n = 0 then [] else .memRead 0 n :: (encryptEvents inputs ++ [.memWrite 0 n])) =
      if n = 0 then [] else [.memRead 0 n, .memWrite 0 n] := by
  split <;> simp

theorem bufferAccesses_authTrace (d : List Byte) : bufferAccesses (authTrace c n d e) =
    if n = 0 then [] else [.memRead 0 n] := bufferAccesses_authEvents n _

theorem bufferAccesses_cryptTrace : bufferAccesses (cryptTrace c n x e) =
    if n = 0 then [] else [.memRead 0 n, .memWrite 0 n] := bufferAccesses_cryptEvents n _

/-- The encryptions of an authenticated chunk, the empty one included (R81, R138). -/
theorem encryptions_authEvents (m : Accumulator) {d : List Byte} (hd : d.length = n) :
    encryptions (if n = 0 then [] else .memRead 0 n :: encryptEvents (macAbsorbInputs E m d)) =
      macAbsorbInputs E m d := by
  split
  · next hn => rw [List.length_eq_zero_iff.1 (hd.trans hn)]; rfl
  · simp

/-- The encryptions of an encrypted or decrypted chunk, the empty one included (R81, R159). -/
theorem encryptions_cryptEvents (r : CtrState) :
    encryptions (if n = 0 then [] else .memRead 0 n :: (encryptEvents (ctrInputs E r n) ++ [.memWrite 0 n])) =
      ctrInputs E r n := by
  split
  · next hn => rw [hn]; rfl
  · simp

theorem encryptions_nonceTrace_length : (encryptions (nonceTrace c e x)).length = 2 := by
  rw [nonceTrace_eq]
  rfl

theorem encryptions_authTrace_length {d : List Byte} (hd : d.length = n) :
    (encryptions (authTrace c n d e)).length = (n + 15) / 16 := by
  have hcalls := macAbsorbInputs_length (e.encrypt c) (macStart_posMatchesCount Config.tweakCtext) d
  rw [authTrace, encryptions_authEvents _ _ _ hd]
  simpa [macStart, blocksFor, hd] using hcalls

theorem encryptions_cryptTrace_length : (encryptions (cryptTrace c n x e)).length = (n + 15) / 16 := by
  have hcalls := ctrInputs_length (e.encrypt c) (ctrSeed_belongs (e.encrypt c) (nonceMac c e x)).ksPos n
  rw [cryptTrace, encryptions_cryptEvents]
  simpa [ctrSeed, blocksFor] using hcalls

theorem encryptions_finalTrace_length (d : List Byte) : (encryptions (finalTrace c d e)).length = 1 := rfl

end

section
variable (c : Cipher) (n : Nat) (x : Nonce) (s : State)

/-- `FINAL_TAG` accesses no byte of the buffer, and calls the cipher once where it makes a tag (R81, R180, R191). -/
theorem finalizeTag_trace : bufferAccesses (finalizeTag c s).trace = [] ∧
    (encryptions (finalizeTag c s).trace).length =
      if (finalizeTag c s).eng.status = .ok ∨ (finalizeTag c s).eng.status = .warnAuthOnly then 1 else 0 := by
  by_cases hphase : s.eng.phase = .messageReady ∨ s.eng.phase = .streaming
  · by_cases hcount : s.eng.mac.cnt = s.eng.ctr.ccnt ∨ s.eng.ctr.ccnt = 0
    · rw [finalizeTag_tag c s hphase hcount]
      refine ⟨bufferAccesses_encryptEvents _, (if_pos ?_).symm⟩
      exact ite_eq_or_eq ..
    · obtain ⟨hne, hpos⟩ := not_or.1 hcount
      rw [finalizeTag_errCount c s hphase hne (Nat.pos_of_ne_zero hpos)]
      exact ⟨rfl, rfl⟩
  · rw [finalizeTag_refused c s (not_or.1 hphase)]
    exact ⟨rfl, rfl⟩

theorem initMessage_accesses : bufferAccesses (initMessage c x s).trace = [] := by
  obtain ⟨-, he⟩ | ⟨-, he⟩ := initMessage_cases c x s <;> rw [he]
  · rfl
  · exact bufferAccesses_nonceTrace c x s.eng

theorem authenticate_accesses (h : (authenticate c n s).eng.status ≠ .errUsage) :
    bufferAccesses (authenticate c n s).trace = if n = 0 then [] else [.memRead 0 n] := by
  obtain ⟨-, he⟩ | ⟨-, he⟩ := authenticate_cases c n s
  · exact absurd (by rw [he]; rfl) h
  · rw [he]
    exact bufferAccesses_authEvents n _

theorem crypt_accesses (h : (crypt c n s).eng.status ≠ .errUsage) :
    bufferAccesses (crypt c n s).trace = if n = 0 then [] else [.memRead 0 n, .memWrite 0 n] := by
  obtain ⟨-, he⟩ | ⟨-, he⟩ := crypt_cases c n s
  · exact absurd (by rw [he]; rfl) h
  · rw [he]
    exact bufferAccesses_cryptEvents n _

theorem encryptMessage_accesses (hn : n < 2 ^ 32) (h : (encryptMessage c n x s).eng.status ≠ .errUsage) :
    bufferAccesses (encryptMessage c n x s).trace = if n = 0 then [.memWrite 0 4]
      else [.memRead 0 n, .memWrite 0 n, .memRead 0 n, .memWrite n 4] := by
  by_cases hphase : s.eng.phase = .uninitialized
  · rw [encryptMessage_refused c s n x hphase] at h
    exact absurd rfl h
  · rw [encryptMessage_accepted c s n x hphase hn]
    simp only [bufferAccesses_append, bufferAccesses_nonceTrace, bufferAccesses_cryptTrace, bufferAccesses_authTrace,
      bufferAccesses_finalTrace, bufferAccesses_write, bufferAccesses_nil]
    split
    · next hzero => rw [hzero]; rfl
    · rfl

theorem decryptMessage_accesses (hn : n < 2 ^ 32) (h : (decryptMessage c n x s).eng.status ≠ .errUsage) :
    bufferAccesses (decryptMessage c n x s).trace = if n = 0 then [.memRead 0 4]
      else [.memRead n 4, .memRead 0 n, .memRead 0 n, .memWrite 0 n] := by
  by_cases hphase : s.eng.phase = .uninitialized
  · rw [decryptMessage_refused c s n x hphase] at h
    exact absurd rfl h
  · rw [decryptMessage_accepted c s n x hphase hn]
    simp only [bufferAccesses_append, bufferAccesses_nonceTrace, bufferAccesses_cryptTrace, bufferAccesses_authTrace,
      bufferAccesses_finalTrace, bufferAccesses_read]
    split
    · next hzero => rw [hzero]; rfl
    · rfl

end

theorem Status.ne_errUsage_of_ok {code : Status} (h : code = .ok) : code ≠ .errUsage := by
  rw [h]
  exact Status.noConfusion

/-- Settles O47: the events of each accepted command, with those at the cipher left out. -/
theorem commandsAccessTheBufferInOrder : Obligations.CommandsAccessTheBufferInOrder := by
  refine fun len nonce key s t => ⟨?_, fun h hs => ?_, fun h hs => ?_, fun h hs => ?_, fun h hs => ?_⟩
  · rintro (h | h | h | h) <;> cases h
    · rfl
    · exact initMessage_accesses _ nonce s
    · exact (finalizeTag_trace _ s).1
    · rfl
  · cases h; exact authenticate_accesses _ _ s (Status.ne_errUsage_of_ok hs)
  · cases h; exact crypt_accesses _ _ s (Status.ne_errUsage_of_ok hs)
  · cases h; exact encryptMessage_accesses _ _ nonce s len.isLt (Status.ne_errUsage_of_ok hs)
  · cases h; exact decryptMessage_accesses _ _ nonce s len.isLt hs

theorem Phase.messageBegun_of_inMessage {p : Phase} (h : p.inMessage = true) : p.messageBegun = true := by
  rcases (Phase.inMessage_iff p).1 h with rfl | rfl <;> rfl

/-- In a message the positions belong to the counts (R37, R38). -/
theorem EngineInv.positions_of_inMessage {c : Cipher} {e : Engine} (h : EngineInv c e)
    (hp : e.phase.inMessage = true) : e.mac.posMatchesCount = true ∧ e.ctr.posMatchesCount := by
  have hbegun := Phase.messageBegun_of_inMessage hp
  exact ⟨h.macPos hbegun, h.ksPos hbegun⟩

section
variable (c : Cipher) (n : Nat) (x : Nonce) {s : State}

theorem initMessage_encryptions (h : (initMessage c x s).eng.status = .ok) :
    (encryptions (initMessage c x s).trace).length = 2 := by
  obtain ⟨-, he⟩ | ⟨-, he⟩ := initMessage_cases c x s <;> rw [he] at h ⊢
  · cases h
  · exact encryptions_nonceTrace_length c x s.eng

theorem authenticate_encryptions (hinv : EngineInv c s.eng) (h : (authenticate c n s).eng.status = .ok) :
    (encryptions (authenticate c n s).trace).length = (s.eng.mac.cnt + n + 15) / 16 - (s.eng.mac.cnt + 15) / 16 := by
  obtain ⟨-, he⟩ | ⟨⟨hp, -⟩, he⟩ := authenticate_cases c n s <;> rw [he] at h ⊢
  · cases h
  · obtain ⟨hpos, -⟩ := hinv.positions_of_inMessage hp
    have hcalls := macAbsorbInputs_length (s.eng.encrypt c) hpos (s.buf.readBytes 0 n)
    rw [Memory.readBytes_length] at hcalls
    rw [encryptions_authEvents _ _ _ (Memory.readBytes_length ..)]
    exact Nat.eq_sub_of_add_eq hcalls

theorem crypt_encryptions (hinv : EngineInv c s.eng) (h : (crypt c n s).eng.status = .ok) :
    (encryptions (crypt c n s).trace).length = (s.eng.ctr.ccnt + n + 15) / 16 - (s.eng.ctr.ccnt + 15) / 16 := by
  obtain ⟨-, he⟩ | ⟨⟨hp, -⟩, he⟩ := crypt_cases c n s <;> rw [he] at h ⊢
  · cases h
  · obtain ⟨-, hpos⟩ := hinv.positions_of_inMessage hp
    rw [encryptions_cryptEvents]
    exact Nat.eq_sub_of_add_eq (ctrInputs_length (s.eng.encrypt c) hpos n)

theorem encryptMessage_encryptions (hn : n < 2 ^ 32) (h : (encryptMessage c n x s).eng.status ≠ .errUsage) :
    (encryptions (encryptMessage c n x s).trace).length = 2 + 2 * ((n + 15) / 16) + 1 := by
  by_cases hphase : s.eng.phase = .uninitialized
  · rw [encryptMessage_refused c s n x hphase] at h
    exact absurd rfl h
  · rw [encryptMessage_accepted c s n x hphase hn]
    simp only [encryptions_append, List.length_append, encryptions_nonceTrace_length, encryptions_cryptTrace_length,
      encryptions_authTrace_length c n s.eng (cipherBytes_length c s n x), encryptions_finalTrace_length,
      encryptions_write, encryptions_nil, List.length_nil]
    omega

theorem decryptMessage_encryptions (hn : n < 2 ^ 32) (h : (decryptMessage c n x s).eng.status ≠ .errUsage) :
    (encryptions (decryptMessage c n x s).trace).length = 2 + 2 * ((n + 15) / 16) + 1 := by
  by_cases hphase : s.eng.phase = .uninitialized
  · rw [decryptMessage_refused c s n x hphase] at h
    exact absurd rfl h
  · rw [decryptMessage_accepted c s n x hphase hn]
    simp only [encryptions_read, encryptions_append, List.length_append, encryptions_nonceTrace_length,
      encryptions_cryptTrace_length, encryptions_authTrace_length c n s.eng (Memory.readBytes_length s.buf 0 n),
      encryptions_finalTrace_length]
    omega

end

/-- Settles O48: each pass over the message makes one encryption for each block that it touches for the first time. -/
theorem commandsMakeTheStatedCipherCalls : Obligations.CommandsMakeTheStatedCipherCalls := by
  refine fun len nonce key s hinv => ⟨fun t h => ?_, fun t h hs => ?_, fun t h hs => ?_, fun t h hs => ?_,
    fun t h => ?_, fun t h hs => ?_, fun t h hs => ?_⟩ <;> cases h
  · rfl
  · exact initMessage_encryptions _ nonce hs
  · exact authenticate_encryptions _ _ hinv.engine hs
  · exact crypt_encryptions _ _ hinv.engine hs
  · exact (finalizeTag_trace _ s).2
  · exact encryptMessage_encryptions _ _ nonce len.isLt (Status.ne_errUsage_of_ok hs)
  · exact decryptMessage_encryptions _ _ nonce len.isLt hs

/-! ### The length of the buffer (R97) -/

/-- The accesses of an accepted command whose message or chunk is not empty (R70). -/
def commandAccesses : Instr → List InterfaceEvent
  | .auth len => [.memRead 0 len.toNat]
  | .crypt len => [.memRead 0 len.toNat, .memWrite 0 len.toNat]
  | .encMsg len _ => [.memRead 0 len.toNat, .memWrite 0 len.toNat, .memRead 0 len.toNat, .memWrite len.toNat 4]
  | .decMsg len _ => [.memRead len.toNat 4, .memRead 0 len.toNat, .memRead 0 len.toNat, .memWrite 0 len.toNat]
  | _ => []

/-- Refused, with an empty chunk or with bytes, a command makes no other accesses (R70, R184, R239). -/
theorem exec_accesses_subset {i : Instr} {s t : State} (hi : i.hostIssuable = true) (h : exec i s = .next t) :
    bufferAccesses t.trace ⊆ commandAccesses i := by
  by_cases hs : t.eng.status = .errUsage
  · obtain ⟨-, -, htrace⟩ := exec_of_errUsage hi h hs
    rw [htrace]
    exact List.nil_subset _
  cases i with
  | initMsg x => cases h; rw [initMessage_accesses]; exact List.nil_subset _
  | auth len => cases h; rw [authenticate_accesses _ _ _ hs]; split <;> simp [commandAccesses]
  | crypt len => cases h; rw [crypt_accesses _ _ _ hs]; split <;> simp [commandAccesses]
  | finalTag => cases h; rw [(finalizeTag_trace _ s).1]; exact List.nil_subset _
  | encMsg len x => cases h; rw [encryptMessage_accesses _ _ _ _ len.isLt hs]; split <;> simp [commandAccesses, *]
  | decMsg len x => cases h; rw [decryptMessage_accesses _ _ _ _ len.isLt hs]; split <;> simp [commandAccesses, *]
  | initKey _ | wipe => cases h; exact List.nil_subset _
  | gfDbl _ | subkey | macStart _ | macAbsorb _ _ | macFinish _ | ctrSeed _ | ctrApply _ | ctrInc _ => cases hi

theorem commandAccesses_within (i : Instr) (off n : Nat)
    (h : .memRead off n ∈ commandAccesses i ∨ .memWrite off n ∈ commandAccesses i) :
    off + n ≤ bufferLength i := by
  cases i with
  | auth len | crypt len | encMsg len x | decMsg len x =>
    simp [commandAccesses, bufferLength, Config.tagBytes] at h ⊢
    omega
  | initKey _ | initMsg _ | finalTag | wipe | gfDbl _ | subkey | macStart _ | macAbsorb _ _ | macFinish _ | ctrSeed _
  | ctrApply _ | ctrInc _ => simp [commandAccesses] at h

/-- Every array of `n` bytes is exactly one buffer of `n` bytes (R61, R97). -/
theorem existsUnique_buffer {n : Nat} {v : List Byte} (hv : v.length = n) :
    ∃! b : Buffer n, b.cells.readBytes 0 n = v := by
  have hok : (Memory.wf (Memory.writeBytes [] 0 v) && Memory.within (Memory.writeBytes [] 0 v) n) = true := by
    rw [Bool.and_eq_true]
    exact ⟨Memory.wf_writeBytes rfl 0 v, Memory.within_writeBytes rfl (by omega)⟩
  have hread : (Memory.writeBytes [] 0 v).readBytes 0 n = v := hv ▸ Memory.readBytes_writeBytes [] 0 v
  refine ⟨⟨_, hok⟩, hread, fun b hb => Buffer.eq_of_read fun a ha => ?_⟩
  have hbytes := congrArg (·.getD a 0) (hb.trans hread.symm)
  simpa [Memory.readBytes, ha] using hbytes

/-- Settles O49: the lengths are read off the table of R97, and a command's accesses end at its buffer's length. -/
theorem commandBuffersHaveTheirLength : Obligations.CommandBuffersHaveTheirLength := by
  refine ⟨fun len nonce key => ⟨rfl, rfl, rfl, rfl, rfl, rfl, rfl, rfl⟩, fun d i => operandLength_of_command,
    fun d why => operandLength_of_illegal, fun n v => existsUnique_buffer,
    fun n b => (Memory.within_iff _ _).1 b.within, fun i s t hi h => ⟨fun off n hmem => ?_, fun hs => ?_⟩⟩
  · have hsubset := exec_accesses_subset hi h
    exact commandAccesses_within i off n (hmem.imp (fun hr => hsubset (List.mem_filter.2 ⟨hr, rfl⟩))
      fun hw => hsubset (List.mem_filter.2 ⟨hw, rfl⟩))
  · rw [← Memory.within_iff] at hs ⊢
    exact exec_buf_of_writes (P := fun m => m.within (bufferLength i) = true) h hs
      fun m off v hv hm => Memory.within_writeBytes hm hv

end Sys2Proof.Machine
end

section
/-! The step (60_exceptions.md, section 2) and the invariant of reachable states (10_state.md, section 7): in a message
the registers belong to the key, the nonce and the counts, and every command keeps that. -/

namespace Sys2Proof.Machine

theorem step_of_pending_nil {s : State} (h : s.pending = []) : step s = .next s := by
  simp only [step, h, waitForHost]

/-- The one branch of `step` that a waiting command takes (R240). -/
theorem step_of_pending_command {s : State} {d : List Byte} {brought : Buffer (operandLength d)}
    {rest : List HostInput} {i : Instr} (hp : s.pending = .command d brought :: rest) (hd : decode d = .command i) :
    step s = exec i (takeInput rest brought s) := by
  simp only [step, hp, hd]

/-- Settles O6: taking the input hands over a buffer of the decoded command's own length. -/
theorem stepRunsTheDecodedCommand : Obligations.StepRunsTheDecodedCommand := by
  intro s d brought rest i hp hd
  rw [step_of_pending_command hp hd]
  simp only [takeInput, handOver, consumeInput, operandLength_of_command hd]

/-- What one step does (R19, R100, R260): it waits, resets, refuses an illegal descriptor, or runs a session command. -/
theorem step_cases (s : State) :
    (s.pending = [] ∧ step s = .next s) ∨
    (∃ rest, s.pending = .reset :: rest ∧ step s = .next (platformReset (consumeInput rest s))) ∨
    (∃ d brought rest, s.pending = .command d brought :: rest ∧
      step s = .next (illegalDescriptor (consumeInput rest s))) ∨
    (∃ d brought rest i t, s.pending = .command d brought :: rest ∧ i.hostIssuable = true ∧
      exec i (takeInput rest brought s) = .next t ∧ step s = .next t) := by
  match hp : s.pending with
  | [] => exact .inl ⟨rfl, step_of_pending_nil hp⟩
  | .reset :: rest => exact .inr (.inl ⟨rest, rfl, step_of_pending_reset hp⟩)
  | .command d brought :: rest =>
    match hd : decode d with
    | .illegal why => exact .inr (.inr (.inl ⟨d, brought, rest, rfl, step_of_pending_illegal hp hd⟩))
    | .command i =>
      obtain ⟨t, ht⟩ := exec_next (takeInput rest brought s) i
      exact .inr (.inr (.inr ⟨d, brought, rest, i, t, rfl, hostIssuable_of_decode hd, ht,
        (step_of_pending_command hp hd).trans ht⟩))

/-- Settles O8: by the cases of a step; no command touches the inputs that are left after it is taken. -/
theorem stepAlwaysAnswersNext : Obligations.StepAlwaysAnswersNext := by
  intro s
  obtain ⟨hp, he⟩ | ⟨rest, hp, he⟩ | ⟨d, brought, rest, hp, he⟩ | ⟨d, brought, rest, i, t, hp, -, ht, he⟩ :=
    step_cases s
  · exact ⟨_, he, by rw [hp]; rfl⟩
  · exact ⟨_, he, by rw [hp]; rfl⟩
  · exact ⟨_, he, by rw [hp]; rfl⟩
  · exact ⟨t, he, by rw [exec_pending ht, hp]; rfl⟩

/-- Settles O11: the two encodings evaluated (R32, R99). -/
theorem statusCodesHaveTheirValues : Obligations.StatusCodesHaveTheirValues := by
  unfold Obligations.StatusCodesHaveTheirValues
  decide

/-! ### The registers of a message -/

/-- What the invariant says of the registers of a message, whatever the phase (R21, R38, R39, R123, R135, R183). -/
structure MessageRegisters (c : Cipher) (e : Engine) : Prop where
  scheduled : ∃ key, e.ks = some (c.deriveKeySchedule key)
  pads : e.padFull = dbl (e.encrypt c zeroBlock) ∧ e.padPartial = dbl e.padFull
  nonce : ∃ x, e.n = nonceMac c e x
  absorbed : ∃ d : List Byte, d.length = e.mac.cnt ∧ e.mac = macAbsorb (e.encrypt c) (macStart Config.tweakCtext) d
  keystream : CtrBelongs (e.encrypt c) e.n e.ctr
  inRange : e.mac.cnt < 2 ^ Config.cntBits ∧ e.ctr.ccnt < 2 ^ Config.cntBits

theorem block_add_ofNat (b : Block) (k : Nat) : b + BitVec.ofNat 128 k = BitVec.ofNat 128 (b.toNat + k) := by
  rw [BitVec.ofNat_add, BitVec.ofNat_toNat, BitVec.setWidth_eq]

/-- The counter whose encryption stands in the cache, as an integer (R38). -/
theorem block_add_lastBlock (b : Block) {n : Nat} (hn : n ≠ 0) :
    b + BitVec.ofNat 128 (blocksFor n - 1) = BitVec.ofNat 128 (b.toNat + blocksFor n - 1) := by
  have hpos : 1 ≤ blocksFor n := by
    unfold blocksFor
    omega
  rw [block_add_ofNat, Nat.add_sub_assoc hpos]

section
variable {c : Cipher} {e : Engine}

theorem EngineInv.messageRegisters (h : EngineInv c e) (hp : e.phase.messageBegun = true) : MessageRegisters c e := by
  have hkey : e.phase ≠ .uninitialized := by
    intro hu
    rw [hu] at hp
    cases hp
  refine ⟨h.scheduled hkey, h.pads hkey, h.nonce hp, h.absorbed hp, ⟨h.ksPos hp, ?_, ?_⟩, h.inRange⟩
  · apply BitVec.eq_of_toNat_eq
    rw [h.counter hp, block_add_ofNat, BitVec.toNat_ofNat]
  · rw [h.cache hp]
    split
    · rfl
    · next hn => rw [block_add_lastBlock _ hn]

theorem MessageRegisters.engineInv (h : MessageRegisters c e) (hp : e.phase.messageBegun = true)
    (hready : e.phase = .messageReady → e.mac.cnt = 0 ∧ e.ctr.ccnt = 0)
    (hstreaming : e.phase = .streaming → 0 < e.mac.cnt + e.ctr.ccnt) (htag : e.phase ≠ .finalized → e.tag = 0) :
    EngineInv c e where
  wiped hu := by rw [hu] at hp; cases hp
  scheduled _ := h.scheduled
  pads _ := h.pads
  keyedClear hk := by rw [hk] at hp; cases hp
  nonce _ := h.nonce
  absorbed _ := h.absorbed
  macPos _ := by
    obtain ⟨d, -, hmac⟩ := h.absorbed
    rw [hmac]
    exact macAbsorb_posMatchesCount _ (macStart_posMatchesCount _) d
  ksPos _ := h.keystream.ksPos
  counter _ := h.keystream.ctr_toNat
  cache _ := by
    rw [h.keystream.cache]
    split
    · rfl
    · next hn => rw [block_add_lastBlock _ hn]
  ready := hready
  streaming := hstreaming
  inRange := h.inRange
  noTag := htag

/-- The registers of a message that has just begun (R177). -/
theorem MessageRegisters.of_begun (x : Nonce) (hks : ∃ key, e.ks = some (c.deriveKeySchedule key))
    (hpads : e.padFull = dbl (e.encrypt c zeroBlock) ∧ e.padPartial = dbl e.padFull) :
    MessageRegisters c (messageEngine c x 0 [] .messageReady e) :=
  ⟨hks, hpads, ⟨x, rfl⟩, ⟨[], rfl, rfl⟩, ctrSeed_belongs _ _, ⟨Nat.two_pow_pos _, Nat.two_pow_pos _⟩⟩

theorem MessageRegisters.authChunk (h : MessageRegisters c e) {d : List Byte} (hrange : e.mac.cnt + d.length < 2 ^ 32) :
    MessageRegisters c (e.authChunk c d) := by
  obtain ⟨d', hlen, hmac⟩ := h.absorbed
  refine ⟨h.scheduled, h.pads, h.nonce, ⟨d' ++ d, ?_, ?_⟩, h.keystream, ?_, h.inRange.2⟩
  · rw [Engine.authChunk_cnt, List.length_append, hlen]
  · rw [macAbsorb_append, Engine.encrypt_congr c (e := e.authChunk c d) (f := e) rfl, ← hmac]
    rfl
  · rwa [Engine.authChunk_cnt]

theorem MessageRegisters.cryptChunk (h : MessageRegisters c e) {n : Nat} (hrange : e.ctr.ccnt + n < 2 ^ 32) :
    MessageRegisters c (e.cryptChunk c n) := by
  refine ⟨h.scheduled, h.pads, h.nonce, h.absorbed, ctrAdvance_belongs _ h.keystream n, h.inRange.1, ?_⟩
  rwa [Engine.cryptChunk_ccnt]

/-- `PHASE`, `STATUS` and `TAG` are no part of a message's registers. -/
theorem MessageRegisters.finalized (h : MessageRegisters c e) (tag : Tag) (code : Status) :
    MessageRegisters c { e with tag := tag, phase := .finalized, status := code } :=
  ⟨h.scheduled, h.pads, h.nonce, h.absorbed, h.keystream, h.inRange⟩

/-- The phase after a chunk of `k` bytes says whether any byte has been processed (R40, R185). -/
theorem EngineInv.of_chunk (h : EngineInv c e) (hp : e.phase.inMessage = true) {e' : Engine} {k : Nat}
    (hregs : MessageRegisters c e') (hphase : e'.phase = if k = 0 then e.phase else .streaming)
    (hcount : e'.mac.cnt + e'.ctr.ccnt = e.mac.cnt + e.ctr.ccnt + k) (htag : e'.tag = e.tag) : EngineInv c e' := by
  have hin := (Phase.inMessage_iff _).1 hp
  by_cases hk : k = 0
  · rw [if_pos hk] at hphase
    refine hregs.engineInv ?_ (fun hr => ?_) (fun hst => ?_) (fun hf => ?_)
    · rw [hphase]
      rcases hin with hin | hin <;> rw [hin] <;> rfl
    · obtain ⟨hmac, hctr⟩ := h.ready (hphase ▸ hr)
      omega
    · have hpos := h.streaming (hphase ▸ hst)
      omega
    · rw [htag, h.noTag (hphase ▸ hf)]
  · rw [if_neg hk] at hphase
    refine hregs.engineInv (by rw [hphase]; rfl) (fun hr => ?_) (fun _ => by omega) (fun _ => ?_)
    · rw [hphase] at hr
      cases hr
    · rw [htag, h.noTag]
      rcases hin with hin | hin <;> rw [hin] <;> exact Phase.noConfusion

/-! ### Every command keeps the invariant -/

theorem EngineInv.withStatus (h : EngineInv c e) (code : Status) : EngineInv c { e with status := code } :=
  ⟨fun hp => by rw [h.wiped hp], h.scheduled, h.pads, h.keyedClear, h.nonce, h.absorbed, h.macPos, h.ksPos, h.counter,
    h.cache, h.ready, h.streaming, h.inRange, h.noTag⟩

theorem EngineInv.clearTag (h : EngineInv c e) : EngineInv c { e with tag := 0 } :=
  ⟨fun hp => by rw [h.wiped hp]; rfl, h.scheduled, h.pads, h.keyedClear, h.nonce, h.absorbed, h.macPos, h.ksPos,
    h.counter, h.cache, h.ready, h.streaming, h.inRange, fun _ => rfl⟩

end

theorem engineInv_reset (c : Cipher) : EngineInv c Engine.reset where
  wiped _ := rfl
  scheduled h := absurd rfl h
  pads h := absurd rfl h
  keyedClear h := by cases h
  nonce h := by cases h
  absorbed h := by cases h
  macPos h := by cases h
  ksPos h := by cases h
  counter h := by cases h
  cache h := by cases h
  ready h := by cases h
  streaming h := by cases h
  inRange := by decide
  noTag _ := rfl

/-- Settles O10: the engine's reset values meet its invariant, and the buffer lists nothing. -/
theorem invariantHoldsAtReset : Obligations.InvariantHoldsAtReset := ⟨engineInv_reset _, State.reset_buf_wf⟩

section
variable (c : Cipher) (n : Nat) (x : Nonce) (s : State)

theorem initWithKey_inv (key : Key) : EngineInv c (initWithKey c key s).eng where
  wiped h := by cases h
  scheduled _ := ⟨key, rfl⟩
  pads _ := ⟨rfl, rfl⟩
  keyedClear _ := ⟨rfl, rfl, rfl⟩
  nonce h := by cases h
  absorbed h := by cases h
  macPos h := by cases h
  ksPos h := by cases h
  counter h := by cases h
  cache h := by cases h
  ready h := by cases h
  streaming h := by cases h
  inRange := engineInv_reset c |>.inRange
  noTag _ := rfl

variable {s} (h : EngineInv c s.eng)
include h

theorem initMessage_inv : EngineInv c (initMessage c x s).eng := by
  obtain ⟨-, he⟩ | ⟨hp, he⟩ := initMessage_cases c x s <;> rw [he]
  · exact h.withStatus _
  · have hregs := MessageRegisters.of_begun x (h.scheduled hp) (h.pads hp)
    exact hregs.engineInv rfl (fun _ => ⟨rfl, rfl⟩) (fun hs => by cases hs) (fun _ => rfl)

theorem authenticate_inv : EngineInv c (authenticate c n s).eng := by
  obtain ⟨-, he⟩ | ⟨hacc, he⟩ := authenticate_cases c n s <;> rw [he]
  · exact h.withStatus _
  · have hrange := ((chunkAccepted_iff ..).1 hacc).2
    have hregs := h.messageRegisters (Phase.messageBegun_of_inMessage hacc.1)
    refine h.of_chunk hacc.1 (hregs.authChunk (by simpa using hrange)) rfl ?_ rfl
    rw [Engine.authChunk_cnt]
    exact Nat.add_right_comm ..

theorem crypt_inv : EngineInv c (crypt c n s).eng := by
  obtain ⟨-, he⟩ | ⟨hacc, he⟩ := crypt_cases c n s <;> rw [he]
  · exact h.withStatus _
  · have hrange := ((chunkAccepted_iff ..).1 hacc).2
    have hregs := h.messageRegisters (Phase.messageBegun_of_inMessage hacc.1)
    refine h.of_chunk hacc.1 (hregs.cryptChunk hrange) rfl ?_ rfl
    rw [Engine.cryptChunk_ccnt, Nat.add_assoc]
    rfl

theorem finalizeTag_inv : EngineInv c (finalizeTag c s).eng := by
  obtain ⟨-, he⟩ | ⟨hp, code, tag, tr, -, he⟩ := finalizeTag_cases c s <;> rw [he]
  · exact h.withStatus _
  · have hregs := (h.messageRegisters (Phase.messageBegun_of_inMessage hp)).finalized tag code
    exact hregs.engineInv rfl (fun hr => by cases hr) (fun hr => by cases hr) (fun hf => absurd rfl hf)

/-- `ENC_MSG` keeps the invariant because each sub-step does (R210). -/
theorem encryptMessage_inv : EngineInv c (encryptMessage c n x s).eng := by
  rw [encryptMessage]
  split
  · exact (finalizeTag_inv c (authenticate_inv c n (crypt_inv c n (initMessage_inv c x h)))).withStatus _
  · exact h.withStatus _

/-- `DEC_MSG` keeps the invariant because each sub-step does (R212, R216). -/
theorem decryptMessage_inv : EngineInv c (decryptMessage c n x s).eng := by
  have hsteps := finalizeTag_inv c (crypt_inv c n (authenticate_inv c n (initMessage_inv c x h)))
  rw [decryptMessage]
  split
  · dsimp only
    split
    · exact hsteps.withStatus _
    · exact hsteps.clearTag.withStatus _
  · exact h.withStatus _

end

theorem exec_engineInv {i : Instr} {s t : State} (hi : i.hostIssuable = true) (hs : EngineInv Config.cipher s.eng)
    (h : exec i s = .next t) : EngineInv Config.cipher t.eng := by
  cases i with
  | initKey key => cases h; exact initWithKey_inv _ s key
  | initMsg x => cases h; exact initMessage_inv _ x hs
  | auth len => cases h; exact authenticate_inv _ _ hs
  | crypt len => cases h; exact crypt_inv _ _ hs
  | finalTag => cases h; exact finalizeTag_inv _ hs
  | encMsg len x => cases h; exact encryptMessage_inv _ _ x hs
  | decMsg len x => cases h; exact decryptMessage_inv _ _ x hs
  | wipe => cases h; exact (engineInv_reset _).withStatus _
  | gfDbl _ | subkey | macStart _ | macAbsorb _ _ | macFinish _ | ctrSeed _ | ctrApply _ | ctrInc _ => cases hi

/-- Settles O9: a step waits, resets the engine, writes `STATUS` alone, or runs a session command on a buffer in
canonical form, and each keeps the engine's invariant and the canonical form. -/
theorem everyStepKeepsTheInvariant : Obligations.EveryStepKeepsTheInvariant := by
  intro s t hinv hstep
  obtain ⟨-, he⟩ | ⟨rest, -, he⟩ | ⟨d, brought, rest, -, he⟩ | ⟨d, brought, rest, i, t', -, hi, hexec, he⟩ :=
    step_cases s <;> cases he.symm.trans hstep
  · exact hinv
  · exact ⟨engineInv_reset _, hinv.buffer⟩
  · exact ⟨hinv.engine.withStatus _, hinv.buffer⟩
  · exact ⟨exec_engineInv (s := takeInput rest brought s) hi hinv.engine hexec,
      exec_buf_of_writes (P := fun m => m.wf = true) hexec (takeInput_wf rest brought hinv.buffer)
        fun m off v _ hm => Memory.wf_writeBytes hm off v⟩

end Sys2Proof.Machine
end
